-- ==== Sys2Proof/Word.lean ====
section
/-! DEFINITION. The widths of the block's ports and registers (spec 00_scope.md section 4, R10): 8-bit bytes,
16-bit registers and immediates (`IMM_W`), 32-bit command and response words (`CMD_W`, `RSP_W`). -/

namespace Sys2Proof

/-- `u8` of R10: one register byte, one byte of the output buffer. -/
abbrev Byte := BitVec 8

/-- `u16` of R10: a 16-bit register or the immediate field. -/
abbrev Half := BitVec 16

/-- `u32` of R10: a command word, a response word, the checksum. -/
abbrev Word := BitVec 32

end Sys2Proof
end

