-- ==== Sys2Proof/Config.lean ====
section
/-! DEFINITION. The six OPEN parameters of spec 00_scope.md section 4 (R8, D8, D9). A configuration is plain data that
the machine carries and never changes, so a statement about every state is a statement about every choice of them. -/

namespace Sys2Proof

/-- The OPEN parameters of 00_scope.md section 4. Which values are legal is R8 (`Config.wellFormed`). -/
structure Config where
  /-- `ESTOP_MASK` -/
  estopMask : Byte
  /-- `ENABLED_MASK` -/
  enabledMask : Byte
  /-- `AUTO_MASK` -/
  autoMask : Byte
  /-- `TEST_MASK` -/
  testMask : Byte
  /-- `RESET_ALLIANCE` -/
  resetAlliance : Byte
  /-- `RESET_POSITION` -/
  resetPosition : Byte
  deriving DecidableEq, Repr

/-- The defaults the spec names: D8 for the masks, D9 for the two session template bytes. -/
def Config.defaults : Config where
  estopMask := 0x01
  enabledMask := 0x02
  autoMask := 0x04
  testMask := 0x20
  resetAlliance := 82
  resetPosition := 48

end Sys2Proof
end

