-- ==== Sys2Proof/Syntax.lean ====
section
/-! DEFINITION. The command set HPS-1 as abstract syntax: one constructor for each row of spec/opcode_table.json
(30_encoding.md R97). Enumerations and booleans are types of their own, so a code outside them cannot be written
(R92); index and value operands are the integers the source passes (R94, R93), and `Instr.wellFormed` says which of
them have an encoding. -/

namespace Sys2Proof

/-- `Mode{TELEOP,AUTONOMOUS,TEST}` (30_encoding.md R92, D6). -/
inductive Mode
  | teleop
  | autonomous
  | test
  deriving DecidableEq, Repr

/-- `Alliance{RED,BLUE}` (30_encoding.md R92, D6). -/
inductive Alliance
  | red
  | blue
  deriving DecidableEq, Repr

/-- The fourteen commands (R2, R97). `ch`, `j`, `k`, `n` are the source's 1-based indices, out-of-range values
included (R94); `v` and `p` of type `Int` are the operand as a mathematical integer (R10, R192). -/
inductive Instr
  /-- INIT, 40_session.md R120 -/
  | init (team : Half)
  /-- SET_ESTOP, 41_control_flags.md R130 -/
  | setEstop (v : Bool)
  /-- GET_ESTOP, 41_control_flags.md R131 -/
  | getEstop
  /-- SET_ENABLED, 41_control_flags.md R132 -/
  | setEnabled (v : Bool)
  /-- GET_ENABLED, 41_control_flags.md R133 -/
  | getEnabled
  /-- SET_MODE, 41_control_flags.md R134 -/
  | setMode (m : Mode)
  /-- GET_MODE, 41_control_flags.md R135 -/
  | getMode
  /-- SET_ALLIANCE, 42_station.md R150 -/
  | setAlliance (al : Alliance)
  /-- SET_POSITION, 42_station.md R151 -/
  | setPosition (p : Int)
  /-- SET_DOUT, 43_outputs.md R160 -/
  | setDout (ch : Nat) (v : Bool)
  /-- SET_AOUT, 43_outputs.md R161 -/
  | setAout (ch : Nat) (v : Int)
  /-- SET_AXIS, 44_joysticks.md R170 -/
  | setAxis (j k : Nat) (v : Int)
  /-- SET_BUTTON, 44_joysticks.md R171 -/
  | setButton (j n : Nat) (v : Bool)
  /-- ENCODE (assembler synonym `next_packet`), 45_encode.md R180 -/
  | encode
  deriving DecidableEq, Repr

end Sys2Proof
end

