-- ==== Sys2Proof/WellFormed.lean ====
section
/-! DEFINITION. Which abstract commands have a command word (the operand ranges of 30_encoding.md R105), and which
parameter choices are legal (00_scope.md R8). -/

namespace Sys2Proof

/-- The field `a` holds 0..15 (R90, R94): any joystick number of four bits, out of range or not. -/
def fitsA (j : Nat) : Bool := decide (j ≤ 15)

/-- The field `b` holds 0..255 (R90, R94). -/
def fitsB (n : Nat) : Bool := decide (n ≤ 255)

/-- The immediate of kind `int` holds -32768..32767 (R92). -/
def fitsInt (v : Int) : Bool := decide (-32768 ≤ v) && decide (v ≤ 32767)

/-- A command that has a command word: every operand fits its field (R105). -/
def Instr.wellFormed : Instr → Bool
  | .init _ => true
  | .setEstop _ => true
  | .getEstop => true
  | .setEnabled _ => true
  | .getEnabled => true
  | .setMode _ => true
  | .getMode => true
  | .setAlliance _ => true
  | .setPosition p => fitsInt p
  | .setDout ch _ => fitsB ch
  | .setAout ch v => fitsB ch && fitsInt v
  | .setAxis j k v => fitsA j && fitsB k && fitsInt v
  | .setButton j n _ => fitsA j && fitsB n
  | .encode => true

/-- A single-bit mask of an 8-bit field (R8). -/
def isSingleBit (m : Byte) : Bool := (List.range 8).any fun n => m == 1#8 <<< n

/-- `four distinct single-bit masks of an 8-bit field` (R8). -/
def Config.masksOk (c : Config) : Bool :=
  isSingleBit c.estopMask && isSingleBit c.enabledMask && isSingleBit c.autoMask && isSingleBit c.testMask &&
    c.estopMask != c.enabledMask && c.estopMask != c.autoMask && c.estopMask != c.testMask &&
    c.enabledMask != c.autoMask && c.enabledMask != c.testMask && c.autoMask != c.testMask

/-- `RESET_ALLIANCE` is a legal alliance byte (R8). -/
def Config.allianceOk (c : Config) : Bool := c.resetAlliance == 82 || c.resetAlliance == 66

/-- `RESET_POSITION` is a legal position byte (R8). -/
def Config.positionOk (c : Config) : Bool := c.resetPosition == 48 || c.resetPosition == 49 || c.resetPosition == 50

/-- A legal choice of the OPEN parameters (R8). -/
def Config.wellFormed (c : Config) : Bool := c.masksOk && c.allianceOk && c.positionOk

end Sys2Proof
end

