-- ==== Sys2Proof/Decode.lean ====
section
/-! DEFINITION. Command words (30_encoding.md R90 to R99): the fields, the decoder, total on all 2^32 words and
rejecting by name, and after it the encoder, written from the same table R97. -/

namespace Sys2Proof

/-- Why a word is illegal (R99, D7): the three ways a word can fail its row of R97. -/
inductive DecodeError
  /-- opcode 0x0 or 0xF (R98) -/
  | reservedOpcode
  /-- a field the row of R97 marks `-` is not zero (R91) -/
  | unusedFieldNotZero
  /-- `imm` is outside the legal column of R92 for the opcode's kind -/
  | immediateNotInKind
  deriving DecidableEq, Repr

/-! The fields of R90. -/

/-- `op`, bits 31..28 (R90). -/
def opField (w : Word) : BitVec 4 := w.extractLsb' 28 4

/-- `a`, bits 27..24 (R90): joystick number. -/
def aField (w : Word) : BitVec 4 := w.extractLsb' 24 4

/-- `b`, bits 23..16 (R90): channel, axis or button number. -/
def bField (w : Word) : Byte := w.extractLsb' 16 8

/-- `imm`, bits 15..0 (R90). -/
def immField (w : Word) : Half := w.extractLsb' 0 16

/-! The kinds of immediate of R92. -/

/-- Kind `bool` (R92, D5): only 0 and 1 are booleans. -/
def readBool (imm : Half) : Option Bool :=
  if imm = 0 then some false else if imm = 1 then some true else none

/-- Kind `mode` (R92, D6). -/
def readMode (imm : Half) : Option Mode :=
  if imm = 0 then some .teleop else if imm = 1 then some .autonomous else if imm = 2 then some .test else none

/-- Kind `alliance` (R92, D6). -/
def readAlliance (imm : Half) : Option Alliance :=
  if imm = 0 then some .red else if imm = 1 then some .blue else none

/-- Kind `int` (R92): `sext_16(imm)` of R10. -/
def readInt (imm : Half) : Int := imm.toInt

/-- Kind `none` (R92): the immediate is unused and zero. -/
def readNone (imm : Half) : Option Unit := if imm = 0 then some () else none

/-- The fields marked `-` in R97 must be zero (R91). -/
def requireUnused (unusedIsZero : Bool) (r : Except DecodeError Instr) : Except DecodeError Instr :=
  if unusedIsZero then r else .error .unusedFieldNotZero

/-- The immediate must be in its kind's legal column (R92). -/
def requireKind {α : Type} (v : Option α) (mk : α → Instr) : Except DecodeError Instr :=
  match v with
  | some x => .ok (mk x)
  | none => .error .immediateNotInKind

/-- The opcode map R97, one row a line, on the fields of a word. -/
def decodeFields (op : BitVec 4) (a : BitVec 4) (b : Byte) (imm : Half) : Except DecodeError Instr :=
  match op.toNat with
  | 0x1 => requireUnused (a == 0 && b == 0) (.ok (.init imm))
  | 0x2 => requireUnused (a == 0 && b == 0) (requireKind (readBool imm) fun v => .setEstop v)
  | 0x3 => requireUnused (a == 0 && b == 0) (requireKind (readNone imm) fun _ => .getEstop)
  | 0x4 => requireUnused (a == 0 && b == 0) (requireKind (readBool imm) fun v => .setEnabled v)
  | 0x5 => requireUnused (a == 0 && b == 0) (requireKind (readNone imm) fun _ => .getEnabled)
  | 0x6 => requireUnused (a == 0 && b == 0) (requireKind (readMode imm) fun m => .setMode m)
  | 0x7 => requireUnused (a == 0 && b == 0) (requireKind (readNone imm) fun _ => .getMode)
  | 0x8 => requireUnused (a == 0 && b == 0) (requireKind (readAlliance imm) fun al => .setAlliance al)
  | 0x9 => requireUnused (a == 0 && b == 0) (.ok (.setPosition (readInt imm)))
  | 0xA => requireUnused (a == 0) (requireKind (readBool imm) fun v => .setDout b.toNat v)
  | 0xB => requireUnused (a == 0) (.ok (.setAout b.toNat (readInt imm)))
  | 0xC => .ok (.setAxis a.toNat b.toNat (readInt imm))
  | 0xD => requireKind (readBool imm) fun v => .setButton a.toNat b.toNat v
  | 0xE => requireUnused (a == 0 && b == 0) (requireKind (readNone imm) fun _ => .encode)
  | _ => .error .reservedOpcode

/-- The decoder: the command a word is, or why it is illegal (R97, R99). -/
def decode (w : Word) : Except DecodeError Instr :=
  decodeFields (opField w) (aField w) (bField w) (immField w)

/-! The encoder (R90, R97). -/

/-- `word = (op << 28) | (a << 24) | (b << 16) | imm` (R90). -/
def packWord (op : BitVec 4) (a : BitVec 4) (b : Byte) (imm : Half) : Word :=
  (op.setWidth 32 <<< 28) ||| (a.setWidth 32 <<< 24) ||| (b.setWidth 32 <<< 16) ||| imm.setWidth 32

/-- The immediate of a boolean (R92). -/
def boolImm (v : Bool) : Half := if v then 1 else 0

/-- The immediate of a mode (R92). -/
def Mode.code : Mode → Half
  | .teleop => 0
  | .autonomous => 1
  | .test => 2

/-- The immediate of an alliance (R92). -/
def Alliance.code : Alliance → Half
  | .red => 0
  | .blue => 1

/-- The immediate of an integer, `int mod 65536` (R105). -/
def intImm (v : Int) : Half := BitVec.ofInt 16 v

/-- The opcode of a command (R97). -/
def Instr.opcode : Instr → BitVec 4
  | .init _ => 0x1
  | .setEstop _ => 0x2
  | .getEstop => 0x3
  | .setEnabled _ => 0x4
  | .getEnabled => 0x5
  | .setMode _ => 0x6
  | .getMode => 0x7
  | .setAlliance _ => 0x8
  | .setPosition _ => 0x9
  | .setDout _ _ => 0xA
  | .setAout _ _ => 0xB
  | .setAxis _ _ _ => 0xC
  | .setButton _ _ _ => 0xD
  | .encode => 0xE

/-- The command word of a well-formed command (R90, R97, R105). -/
def encodeInstr : Instr → Word
  | .init team => packWord 0x1 0 0 team
  | .setEstop v => packWord 0x2 0 0 (boolImm v)
  | .getEstop => packWord 0x3 0 0 0
  | .setEnabled v => packWord 0x4 0 0 (boolImm v)
  | .getEnabled => packWord 0x5 0 0 0
  | .setMode m => packWord 0x6 0 0 m.code
  | .getMode => packWord 0x7 0 0 0
  | .setAlliance al => packWord 0x8 0 0 al.code
  | .setPosition p => packWord 0x9 0 0 (intImm p)
  | .setDout ch v => packWord 0xA 0 (BitVec.ofNat 8 ch) (boolImm v)
  | .setAout ch v => packWord 0xB 0 (BitVec.ofNat 8 ch) (intImm v)
  | .setAxis j k v => packWord 0xC (BitVec.ofNat 4 j) (BitVec.ofNat 8 k) (intImm v)
  | .setButton j n v => packWord 0xD (BitVec.ofNat 4 j) (BitVec.ofNat 8 n) (boolImm v)
  | .encode => packWord 0xE 0 0 0

/-- The command word whose table bits are `w`: bits above `nbits` are zero, and a command is one 32-bit word of no
byte order (R62, R104). -/
def tableWord (nbits w : Nat) : Word := BitVec.ofNat 32 (w % 2 ^ nbits)

/-- What the decoder reads from a row of spec/opcode_table.json. -/
def decodeTableWord (nbits w : Nat) : Option Instr := (decode (tableWord nbits w)).toOption

end Sys2Proof
end

