-- ==== Sys2Proof/Machine/State.lean ====
section
/-! DEFINITION. The state of the block (10_state.md R20) as plain data, the data of its ports (R42), the reasons a step
can stop, and the state right after hardware reset (R43, R240). -/

namespace Sys2Proof.Machine

/-- The output buffer as a list of (offset, byte) pairs, offsets strictly rising and below 1024 (20_memory.md R60).
An offset that is not listed holds no value: nothing has written it (log 3). -/
abbrev Memory := List Host.Cell

/-- One move of an agent outside the block (00_scope.md R13, 70_reset_and_hazards.md R252). -/
inductive Input
  /-- the issuer's command word is accepted on the command port -/
  | command (w : Word)
  /-- the transport reads one byte: `buf_addr`, 10 bits (R42, R64) -/
  | readByte (off : BitVec 10)
  deriving DecidableEq, Repr

/-- The machine. The first thirteen fields are the architectural state of R20 under the spec's names; the last four are
the model's own: the ports' data and the configuration (logs 1, 4, 6, 7). -/
structure State where
  /-- `CF`, the control byte (R21) -/
  cf : Byte
  /-- `DOUT` (R24) -/
  dout : Byte
  /-- `AOUT[1..4]` (R25), channel c at position c-1 -/
  aout : Vector Half 4
  /-- `ALLI` (R26), a wire byte -/
  alli : Byte
  /-- `POS` (R27), a wire byte -/
  pos : Byte
  /-- `AXIS[1..4][1..6]` (R28), two's complement bytes, joystick j axis k at position j-1, k-1 -/
  axis : Vector (Vector Byte 6) 4
  /-- `BTN[1..4]` (R29), joystick j at position j-1 -/
  btn : Vector Half 4
  /-- `TEAM` (R30) -/
  team : Half
  /-- `INDEX` (R31) -/
  index : Half
  /-- `SESSION` (R32) -/
  session : Bool
  /-- `BUF_VALID` (R33) -/
  bufValid : Bool
  /-- `FATAL` (R34) -/
  fatal : Bool
  /-- `BUF[0..1023]` (R39, R60) -/
  buf : Memory
  /-- what issuer and transport do next, in arrival order (R42; log 4) -/
  inputs : List Input
  /-- every `rsp_word` so far, oldest first (R42, R251; log 6) -/
  responses : List Word
  /-- every `buf_data` byte read so far, oldest first (R42, R251; log 7) -/
  readData : List Byte
  /-- the OPEN parameters (R8, R45; log 1) -/
  cfg : Config
  deriving DecidableEq, Repr

/-- Why the machine stops with a fault. The spec's own faults are responses after which the machine goes on (R210, R217)
and are next states, so no command raises one of these. -/
inductive Fault
  /-- Raised by `transportRead` when a valid buffer holds no value at the offset read. SAFE: the model stops where the
  hardware gives a byte; no reachable state meets it, since ENCODE writes all 1024 bytes before it sets `BUF_VALID`. -/
  | unwrittenByte (off : Nat)
  deriving DecidableEq, Repr

/-- Why the machine has no meaning for a move. -/
inductive Refusal
  /-- Answered by `exec`'s arms for a command that has no meaning yet, and by nothing else. SAFE. No arm answers it now:
  every command has its meaning. -/
  | notModelled (mnemonic : String)
  /-- Answered by `transportRead` while `BUF_VALID = 0`: such a read has no meaning (70_reset_and_hazards.md R244,
  93_implementation_defined.md U6: `refuse in a model`). SAFE. -/
  | bufferNotValid
  deriving DecidableEq, Repr

/-- The outcome of a step of this machine. -/
abbrev Result := Host.Outcome State Fault Refusal

/-- Hardware reset (R43, R240): no session, no valid buffer, not fatal, nothing waiting and no response pending. The
registers R43 calls `unspecified` hold zero (DESIGN CHOICE, log 2); the buffer holds no value (log 3); the parameters
are the spec's defaults (log 1). -/
def State.reset : State where
  cf := 0
  dout := 0
  aout := .replicate 4 0
  alli := 0
  pos := 0
  axis := .replicate 4 (.replicate 6 0)
  btn := .replicate 4 0
  team := 0
  index := 0
  session := false
  bufValid := false
  fatal := false
  buf := []
  inputs := []
  responses := []
  readData := []
  cfg := Config.defaults

end Sys2Proof.Machine
end

