-- ==== Sys2Proof/Machine/Flags.lean ====
section
/-! DEFINITION. Bit fields: setting, clearing and testing a bit by its mask (41_control_flags.md R136, 45_encode.md
R191), and the mode pair of the control byte (10_state.md R23, R36). -/

namespace Sys2Proof.Machine

/-- The mask of bit number `n`, counted from 0 (R24, R29: `1 << (c - 1)`). -/
def bitMask (w n : Nat) : BitVec w := 1#w <<< n

/-- A bit field with the bits of a mask set or cleared, the others unchanged (R130, R132, R160, R171). -/
def assignMask {w : Nat} (field mask : BitVec w) (v : Bool) : BitVec w :=
  if v then field ||| mask else field &&& ~~~mask

/-- The bit test of the block: `(field & mask) != 0` (R136). -/
def testMask {w : Nat} (field mask : BitVec w) : Bool := (field &&& mask) != 0

/-- A flag as response data (R102, D26). -/
def flagData (v : Bool) : Half := if v then 1 else 0

/-- The control byte with its mode pair written as a pair (R134). -/
def writeMode (cfg : Config) (cf : Byte) (m : Mode) : Byte :=
  let base := cf &&& ~~~(cfg.autoMask ||| cfg.testMask)
  match m with
  | .teleop => base
  | .autonomous => base ||| cfg.autoMask
  | .test => base ||| cfg.testMask

/-- The mode re-derived from the control byte, the autonomous bit tested first (R135, D15; log 10). -/
def readModeBits (cfg : Config) (cf : Byte) : Mode :=
  if testMask cf cfg.autoMask then .autonomous
  else if testMask cf cfg.testMask then .test
  else .teleop

/-- A mode as response data: its code of R92 (R102, D26). -/
def modeData : Mode → Half
  | .teleop => 0
  | .autonomous => 1
  | .test => 2

end Sys2Proof.Machine
end

