-- ==== Sys2Proof/Machine/Ops.lean ====
section
/-! DEFINITION. The named operations of the machine: byte order, the output buffer (20_memory.md), answering a command
(30_encoding.md R100 to R102), taking a fault (60_exceptions.md R217), the tests every command goes through
(R103, R215), and the transport's read (R65, R244). -/

namespace Sys2Proof.Machine

/-! ## Byte order (R11, R62) -/

/-- The low byte of a value, `v mod 256`. -/
def byteOf (v : Nat) : Byte := BitVec.ofNat 8 v

/-- `hi` of R66: `value >> 8`. -/
def hiByte (v : Half) : Byte := byteOf (v.toNat >>> 8)

/-- `lo` of R66: `value mod 256`. -/
def loByte (v : Half) : Byte := byteOf v.toNat

/-- The `n` bytes of `v`, most significant first: byte `i` is `(v >> (8*(n-1-i))) mod 256` (R11). -/
def bigEndian (n v : Nat) : List Byte := (List.range n).map fun i => byteOf (v >>> (8 * (n - 1 - i)))

/-- The value of bytes read most significant first (R11 `MemRead`, R62 `256*BUF[o] + BUF[o+1]`). -/
def ofBigEndian (bs : List Byte) : Nat := bs.foldl (fun acc b => 256 * acc + b.toNat) 0

/-! ## The output buffer (R60) -/

/-- The byte at an offset; `none` where nothing has been written (log 3). -/
def Memory.read : Memory → Nat → Option Byte
  | [], _ => none
  | (a, b) :: m, o => if a = o then some b else Memory.read m o

/-- One byte stored, offsets kept strictly rising. -/
def Memory.write : Memory → Nat → Byte → Memory
  | [], o, v => [(o, v)]
  | (a, b) :: m, o, v =>
    if o < a then (o, v) :: (a, b) :: m
    else if o = a then (o, v) :: m
    else (a, b) :: Memory.write m o v

/-- Consecutive bytes stored from an offset upwards. -/
def Memory.writeBytes : Memory → Nat → List Byte → Memory
  | m, _, [] => m
  | m, o, b :: bs => (Memory.writeBytes m (o + 1) bs).write o b

/-- `MemWrite(off, n, v)` of R11 and R195: big-endian. -/
def Memory.memWrite (m : Memory) (off n v : Nat) : Memory := m.writeBytes off (bigEndian n v)

/-- Consecutive bytes from an offset; `none` if one of them holds no value. -/
def Memory.readBytes : Memory → Nat → Nat → Option (List Byte)
  | _, _, 0 => some []
  | m, o, n + 1 =>
    match m.read o, Memory.readBytes m (o + 1) n with
    | some b, some bs => some (b :: bs)
    | _, _ => none

/-- `MemRead(off, n)` of R11: big-endian. -/
def Memory.memRead (m : Memory) (off n : Nat) : Option Nat := (m.readBytes off n).map ofBigEndian

/-- `BUF_BYTES` (00_scope.md section 4, R39). -/
def bufBytes : Nat := 1024

/-- The canonical form: offsets strictly rising, every one an offset of the buffer (R60). An unlisted offset reads as no
value, so no listed byte equals what an unlisted one reads as. -/
abbrev Memory.wf (m : Memory) : Prop :=
  (m.map Prod.fst).Pairwise (· < ·) ∧ ∀ c ∈ m, c.1 < bufBytes

/-! ## Responses (R100 to R102) -/

/-- The status names of R101; 0x5..0xF are never produced (U8). -/
inductive Status
  | ok
  | outOfRange
  | invariantViolation
  | illegalCommand
  | noSession
  deriving DecidableEq, Repr

/-- The status codes of R101. -/
def Status.code : Status → BitVec 4
  | .ok => 0x0
  | .outOfRange => 0x1
  | .invariantViolation => 0x2
  | .illegalCommand => 0x3
  | .noSession => 0x4

/-- `rsp_word = (status << 28) | data` (R100). -/
def responseWord (st : Status) (data : Half) : Word := (st.code.setWidth 32 <<< 28) ||| data.setWidth 32

/-- One response word offered on the response port, after those before it (R42, R100). -/
def State.answered (s : State) (r : Word) : State := { s with responses := s.responses ++ [r] }

/-- `respond(status, data)` of R11. -/
def State.respond (s : State) (st : Status) (data : Half) : State := s.answered (responseWord st data)

/-- A command that has done its writes and responds `OK` (R12, R103 step 5). -/
def complete (s : State) (data : Half) : Result := .next (s.respond .ok data)

/-! ## Taking a fault (R217)

A fault saves nothing and vectors nowhere: the command's writes are suppressed, the response carries the status with
data 0, and the next command is accepted as usual. There is no return from a fault (R218). -/

/-- `raise X` of R11. -/
def raise (st : Status) (s : State) : Result := .next (s.respond st 0)

/-- `raise InvariantViolation` by ENCODE, which also sets `FATAL` (R11, R212, R216). -/
def raiseInvariantViolation (s : State) : Result := raise .invariantViolation { s with fatal := true }

/-- Step 1 of R103: while `FATAL = 1` every command word is answered `InvariantViolation` (R216). -/
def unlessFatal (s : State) (r : Result) : Result := if s.fatal then raise .invariantViolation s else r

/-- Steps 1 and 3 of R103 for every command but INIT: `NoSession` while `SESSION = 0` (R214). -/
def inSession (s : State) (r : Result) : Result :=
  unlessFatal s (if s.session then r else raise .noSession s)

/-- An accepted word that is no command: steps 1 and 2 of R103 (R99, R213). -/
def rejectIllegal (s : State) : Result := unlessFatal s (raise .illegalCommand s)

/-! ## The transport's read (R42, R65, R244) -/

/-- One read of the buffer port: the byte while `buf_valid = 1`, no meaning otherwise (R244, U6). It changes no state of
the block (R65); `readData` is where the model writes down what the transport got. -/
def transportRead (off : BitVec 10) (s : State) : Result :=
  if s.bufValid then
    match s.buf.read off.toNat with
    | some b => .next { s with readData := s.readData ++ [b] }
    | none => .fault (.unwrittenByte off.toNat)
  else .refused .bufferNotValid

end Sys2Proof.Machine
end

