-- ==== Sys2Proof/Machine/Control.lean ====
section
/-! DEFINITION. The control-flag commands (41_control_flags.md): SET_ESTOP, GET_ESTOP, SET_ENABLED, GET_ENABLED,
SET_MODE, GET_MODE. -/

namespace Sys2Proof.Machine

/-- SET_ESTOP (R130). -/
def execSetEstop (v : Bool) (s : State) : Result :=
  inSession s (complete { s with cf := assignMask s.cf s.cfg.estopMask v } 0)

/-- GET_ESTOP (R131). -/
def execGetEstop (s : State) : Result :=
  inSession s (complete s (flagData (testMask s.cf s.cfg.estopMask)))

/-- SET_ENABLED (R132). -/
def execSetEnabled (v : Bool) (s : State) : Result :=
  inSession s (complete { s with cf := assignMask s.cf s.cfg.enabledMask v } 0)

/-- GET_ENABLED (R133). -/
def execGetEnabled (s : State) : Result :=
  inSession s (complete s (flagData (testMask s.cf s.cfg.enabledMask)))

/-- SET_MODE (R134). -/
def execSetMode (m : Mode) (s : State) : Result :=
  inSession s (complete { s with cf := writeMode s.cfg s.cf m } 0)

/-- GET_MODE (R135). -/
def execGetMode (s : State) : Result :=
  inSession s (complete s (modeData (readModeBits s.cfg s.cf)))

end Sys2Proof.Machine
end

