-- ==== Sys2Proof/Machine/Checksum.lean ====
section
/-! DEFINITION. The checksum of 45_encode.md R183: CRC-32, reflected, polynomial 0xEDB88320, initial value and final XOR
0xFFFFFFFF. The bit-level procedure is the spec's rule, which the spec marks general knowledge (G1; log 15). -/

namespace Sys2Proof.Machine

/-- `CRC_POLY` (00_scope.md section 4). -/
def crcPoly : Word := 0xEDB88320

/-- `CRC_INIT` (00_scope.md section 4). -/
def crcInit : Word := 0xFFFFFFFF

/-- `CRC_XOROUT` (00_scope.md section 4). -/
def crcXorOut : Word := 0xFFFFFFFF

/-- One shift of the inner loop of R183. -/
def crcBit (c : Word) : Word := if c.getLsbD 0 then (c >>> 1) ^^^ crcPoly else c >>> 1

/-- `n` shifts. -/
def crcShift : Nat → Word → Word
  | 0, c => c
  | n + 1, c => crcShift n (crcBit c)

/-- One byte of R183: into the low 8 bits, then eight shifts. -/
def crcByte (c : Word) (b : Byte) : Word := crcShift 8 (c ^^^ b.setWidth 32)

/-- The register of R183 after a byte sequence, before the final XOR. -/
def crcRegister (c : Word) (bs : List Byte) : Word := bs.foldl crcByte c

/-- `CRC32(bytes)` (R183). -/
def crc32 (bs : List Byte) : Word := crcRegister crcInit bs ^^^ crcXorOut

end Sys2Proof.Machine
end

