-- ==== Sys2Proof/Machine/Packing.lean ====
section
/-! DEFINITION. Field packing: the wire layout of 20_memory.md R66 as the function `PackByte` of 45_encode.md R181. -/

namespace Sys2Proof.Machine

/-- `VERSION_TAG`: the ASCII characters `02121300` (00_scope.md section 4, 20_memory.md R63). -/
def versionTag : List Byte := [0x30, 0x32, 0x31, 0x32, 0x31, 0x33, 0x30, 0x30]

/-- The byte at place `r` = 0..7 of the eight bytes of joystick `j`: six axes, then the buttons high byte first (R181).
The register of an axis already is its two's complement byte (R28, R182a). -/
def packJoystick (s : State) (j : Fin 4) (r : Nat) : Byte :=
  if h : r < 6 then s.axis[j][r] else if r = 6 then hiByte s.btn[j] else loByte s.btn[j]

/-- The byte of analog output `c` at an even (high) or odd (low) offset (R181). -/
def packAnalog (s : State) (c : Fin 4) (even : Bool) : Byte :=
  if even then hiByte s.aout[c] else loByte s.aout[c]

/-- `PackByte(off, idx)` of R181, for offsets 0..1019. -/
def packByte (s : State) (idx : Half) (off : Nat) : Byte :=
  if off = 0 then hiByte idx
  else if off = 1 then loByte idx
  else if off = 2 then s.cf
  else if off = 3 then s.dout
  else if off = 4 then hiByte s.team
  else if off = 5 then loByte s.team
  else if off = 6 then s.alli
  else if off = 7 then s.pos
  else if h : 8 ≤ off ∧ off ≤ 39 then packJoystick s ⟨off / 8 - 1, by omega⟩ (off % 8)
  else if h : 40 ≤ off ∧ off ≤ 47 then packAnalog s ⟨(off - 40) / 2, by omega⟩ (off % 2 == 0)
  else if off ≤ 71 then 0
  else if off ≤ 79 then versionTag.getD (off - 72) 0
  else 0

/-- Bytes 0..1019 of the packet (R180). -/
def packBytes (s : State) (idx : Half) : List Byte := (List.range 1020).map (packByte s idx)

end Sys2Proof.Machine
end

