-- ==== Sys2Proof/Machine/Encoder.lean ====
section
/-! DEFINITION. The encoder: ENCODE (45_encode.md R180), one atomic transition that writes all 1024 bytes of the buffer,
advances the packet index and makes the buffer valid. -/

namespace Sys2Proof.Machine

/-- The checksum of a packet: over bytes 0..1019 and four zero bytes (R184). -/
def packetChecksum (body : List Byte) : Word := crc32 (body ++ List.replicate 4 0)

/-- The index after a packet, `(idx + 1) mod 65536` (R186, R193). -/
def nextIndex (idx : Half) : Half := idx + 1

/-- The buffer with bytes 0..1019 and the big-endian checksum at 1020..1023 stored into it (R180, R185). -/
def storePacket (m : Memory) (body : List Byte) : Memory :=
  (m.writeBytes 0 body).memWrite 1020 4 (packetChecksum body).toNat

/-- The writes of ENCODE (R180). -/
def encodePacket (s : State) : State :=
  { s with
    buf := storePacket s.buf (packBytes s s.index)
    index := nextIndex s.index
    bufValid := true }

/-- ENCODE (R180). The test of the index is the rule's own; a 16-bit `INDEX` never meets it (R188; log 9). -/
def execEncode (s : State) : Result :=
  inSession s (if 65536 ≤ s.index.toNat then raiseInvariantViolation s else complete (encodePacket s) s.index)

end Sys2Proof.Machine
end

