-- ==== Sys2Proof/Machine/Operands.lean ====
section
/-! DEFINITION. What the commands do with their operands: the index domains (60_exceptions.md R211), saturation
(45_encode.md R192), narrowing to a register (R28, R195) and the wire bytes of the enumerations (10_state.md R26, R27). -/

namespace Sys2Proof.Machine

/-- A 1-based index operand `i` of a domain 1..n, as a position; `none` is `OutOfRange` (R94, R211). The domains
are `N_DOUT` 8, `N_AOUT` 4, `N_JOY` 4, `N_AXIS` 6 and `N_BTN` 16 (00_scope.md section 4). -/
def indexIn (n i : Nat) : Option (Fin n) :=
  if h : 1 ≤ i ∧ i ≤ n then some ⟨i - 1, by omega⟩ else none

/-- `clamp(v, lo, hi)` of R10, on mathematical integers (R192). -/
def clamp (v lo hi : Int) : Int := if v < lo then lo else if v > hi then hi else v

/-- What SET_AOUT stores: `clamp(v, AOUT_MIN, AOUT_MAX)` in 16 bits (R161, R192). -/
def analogValue (v : Int) : Half := BitVec.ofInt 16 (clamp v 0 1023)

/-- What SET_AXIS stores: `clamp(v, AXIS_MIN, AXIS_MAX)` as a two's complement byte (R170, R192; G3). -/
def axisValue (v : Int) : Byte := BitVec.ofInt 8 (clamp v (-128) 127)

/-- The alliance byte: `ALLI_RED` 82, `ALLI_BLUE` 66 (R26, R150). -/
def allianceByte : Alliance → Byte
  | .red => 82
  | .blue => 66

/-- The position byte, `POS_1`, `POS_2`, `POS_3`; any other integer falls back to position 1 (R27, R151). -/
def positionByte (p : Int) : Byte :=
  if p = 1 then 48 else if p = 2 then 49 else if p = 3 then 50 else 48

end Sys2Proof.Machine
end

