-- ==== Sys2Proof/Machine/Joysticks.lean ====
section
/-! DEFINITION. The joystick commands (44_joysticks.md): SET_AXIS, SET_BUTTON. Either bad index, or both, gives the one
status `OutOfRange` (D29). -/

namespace Sys2Proof.Machine

/-- SET_AXIS (R170). -/
def execSetAxis (j k : Nat) (v : Int) (s : State) : Result :=
  inSession s <|
    match indexIn 4 j, indexIn 6 k with
    | some jj, some kk => complete { s with axis := s.axis.set jj (s.axis[jj].set kk (axisValue v)) } 0
    | _, _ => raise .outOfRange s

/-- SET_BUTTON (R171). -/
def execSetButton (j n : Nat) (v : Bool) (s : State) : Result :=
  inSession s <|
    match indexIn 4 j, indexIn 16 n with
    | some jj, some nn => complete { s with btn := s.btn.set jj (assignMask s.btn[jj] (bitMask 16 nn) v) } 0
    | _, _ => raise .outOfRange s

end Sys2Proof.Machine
end

