-- ==== Sys2Proof/Machine/Outputs.lean ====
section
/-! DEFINITION. The output commands (43_outputs.md): SET_DOUT, SET_AOUT. -/

namespace Sys2Proof.Machine

/-- SET_DOUT (R160). -/
def execSetDout (ch : Nat) (v : Bool) (s : State) : Result :=
  inSession s <|
    match indexIn 8 ch with
    | none => raise .outOfRange s
    | some c => complete { s with dout := assignMask s.dout (bitMask 8 c) v } 0

/-- SET_AOUT (R161). The value is not examined when the channel is out of range (R211). -/
def execSetAout (ch : Nat) (v : Int) (s : State) : Result :=
  inSession s <|
    match indexIn 4 ch with
    | none => raise .outOfRange s
    | some c => complete { s with aout := s.aout.set c (analogValue v) } 0

end Sys2Proof.Machine
end

