-- ==== Sys2Proof/Machine/Session.lean ====
section
/-! DEFINITION. Session creation: INIT (40_session.md). -/

namespace Sys2Proof.Machine

/-- The session template: every PacketState register at its template value, the new team number, packet index 0
(10_state.md R43, 40_session.md R120). `FATAL` and the bytes of the buffer are not touched; the buffer is no longer
valid (R122). -/
def freshSession (team : Half) (s : State) : State :=
  { s with
    cf := 0
    dout := 0
    aout := .replicate 4 0
    alli := s.cfg.resetAlliance
    pos := s.cfg.resetPosition
    axis := .replicate 4 (.replicate 6 0)
    btn := .replicate 4 0
    team := team
    index := 0
    session := true
    bufValid := false }

/-- INIT (R120): refused in the fatal state only. -/
def execInit (team : Half) (s : State) : Result := unlessFatal s (complete (freshSession team s) 0)

end Sys2Proof.Machine
end

