-- ==== Sys2Proof/Machine/Station.lean ====
section
/-! DEFINITION. The station commands (42_station.md): SET_ALLIANCE, SET_POSITION. -/

namespace Sys2Proof.Machine

/-- SET_ALLIANCE (R150). -/
def execSetAlliance (al : Alliance) (s : State) : Result :=
  inSession s (complete { s with alli := allianceByte al } 0)

/-- SET_POSITION (R151). -/
def execSetPosition (p : Int) (s : State) : Result :=
  inSession s (complete { s with pos := positionByte p } 0)

end Sys2Proof.Machine
end

