-- ==== Sys2Proof/Machine/Dispatch.lean ====
section
/-! DEFINITION. One arm per command of Instr, each one direct call of its meaning. -/

namespace Sys2Proof.Machine

def exec (i : Instr) (s : State) : Host.Outcome State Fault Refusal :=
  match i with
  | .init team => Sys2Proof.Machine.execInit team s
  | .setEstop v => Sys2Proof.Machine.execSetEstop v s
  | .getEstop => Sys2Proof.Machine.execGetEstop s
  | .setEnabled v => Sys2Proof.Machine.execSetEnabled v s
  | .getEnabled => Sys2Proof.Machine.execGetEnabled s
  | .setMode m => Sys2Proof.Machine.execSetMode m s
  | .getMode => Sys2Proof.Machine.execGetMode s
  | .setAlliance al => Sys2Proof.Machine.execSetAlliance al s
  | .setPosition p => Sys2Proof.Machine.execSetPosition p s
  | .setDout ch v => Sys2Proof.Machine.execSetDout ch v s
  | .setAout ch v => Sys2Proof.Machine.execSetAout ch v s
  | .setAxis j k v => Sys2Proof.Machine.execSetAxis j k v s
  | .setButton j n v => Sys2Proof.Machine.execSetButton j n v s
  | .encode => Sys2Proof.Machine.execEncode s

end Sys2Proof.Machine
end

