-- ==== Sys2Proof/Machine/Accept.lean ====
section
/-! DEFINITION. What the block does with one move of an agent outside it: a command word of the issuer, or a buffer read
of the transport (70_reset_and_hazards.md R252). -/

namespace Sys2Proof.Machine

/-- One accepted command word (30_encoding.md R103): a legal word is executed, any other is answered. The test of the
fatal state comes first in both cases (`unlessFatal` in every meaning and in `rejectIllegal`). -/
def acceptCommand (w : Word) (s : State) : Result :=
  match decode w with
  | .ok i => exec i s
  | .error _ => rejectIllegal s

/-- One move carried out. -/
def acceptInput (x : Input) (s : State) : Result :=
  match x with
  | .command w => acceptCommand w s
  | .readByte off => transportRead off s

end Sys2Proof.Machine
end

