-- ==== Sys2Proof/Machine/Step.lean ====
section
/-! DEFINITION. One step of the block: the next move of the issuer or the transport is taken and carried out. -/

namespace Sys2Proof.Machine

/-- One step. With nothing waiting the block is idle (60_exceptions.md R224, 70_reset_and_hazards.md R241; log 5). -/
def step (s : State) : Host.Outcome State Fault Refusal :=
  match s.inputs with
  | [] => .next s
  | x :: rest => acceptInput x { s with inputs := rest }

/-- The state in which the issuer's next move is the command word whose table bits are `w`, before every move already
waiting (log 4). -/
def State.withFetchWord (s : State) (nbits w : Nat) : State :=
  { s with inputs := .command (tableWord nbits w) :: s.inputs }

end Sys2Proof.Machine
end

