-- ==== Sys2Proof/Machine/Issuer.lean ====
section
/-! DEFINITION. The issuer's side of the command port: the duties of 30_encoding.md R93 and R94, and the assembler of
R105 and R106 on the tokens of a line (log 14). The machine calls none of it; claims about what an issuer may rely on
are stated with it. -/

namespace Sys2Proof.Machine

/-- R93: a wider integer is saturated to the 16-bit operand range before the word is formed. -/
def saturateInt (v : Int) : Int := if v < -32768 then -32768 else if v > 32767 then 32767 else v

/-- R94: an index that does not fit a field of `top` as its greatest value is sent as 0. -/
def fitIndex (top i : Int) : Nat := if 0 ≤ i ∧ i ≤ top then i.toNat else 0

/-- The command an issuer sends for one with wider operands (R93, R94). -/
def fitOperands : Instr → Instr
  | .init team => .init team
  | .setEstop v => .setEstop v
  | .getEstop => .getEstop
  | .setEnabled v => .setEnabled v
  | .getEnabled => .getEnabled
  | .setMode m => .setMode m
  | .getMode => .getMode
  | .setAlliance al => .setAlliance al
  | .setPosition p => .setPosition (saturateInt p)
  | .setDout ch v => .setDout (fitIndex 255 ch) v
  | .setAout ch v => .setAout (fitIndex 255 ch) (saturateInt v)
  | .setAxis j k v => .setAxis (fitIndex 15 j) (fitIndex 255 k) (saturateInt v)
  | .setButton j n v => .setButton (fitIndex 15 j) (fitIndex 255 n) v
  | .encode => .encode

/-- An operand of an assembler line: an integer, decimal or hexadecimal, or a name (R105). -/
inductive AsmOperand
  | int (v : Int)
  | name (x : String)
  deriving DecidableEq, Repr

/-- `<0|1>` (R105). -/
def asmBool : AsmOperand → Option Bool
  | .int v => if v = 0 then some false else if v = 1 then some true else none
  | .name _ => none

/-- An unsigned operand up to `top`: `team`, `<ch>`, `<axis>`, `<btn>`, `<joy>` (R105). -/
def asmNat (top : Nat) : AsmOperand → Option Nat
  | .int v => if 0 ≤ v ∧ v ≤ top then some v.toNat else none
  | .name _ => none

/-- `<int>`: outside -32768..32767 it is an assembly error, not a saturation (R105). -/
def asmInt : AsmOperand → Option Int
  | .int v => if fitsInt v then some v else none
  | .name _ => none

/-- `<teleop|autonomous|test>` (R105). -/
def asmMode : AsmOperand → Option Mode
  | .name x =>
    if x = "teleop" then some .teleop
    else if x = "autonomous" then some .autonomous
    else if x = "test" then some .test
    else none
  | .int _ => none

/-- `<red|blue>` (R105). -/
def asmAlliance : AsmOperand → Option Alliance
  | .name x => if x = "red" then some .red else if x = "blue" then some .blue else none
  | .int _ => none

/-- The mnemonics of R105, and `next_packet` (R106). -/
def mnemonicOpcode (m : String) : Option (BitVec 4) :=
  if m = "init" then some 0x1
  else if m = "set_estop" then some 0x2
  else if m = "get_estop" then some 0x3
  else if m = "set_enabled" then some 0x4
  else if m = "get_enabled" then some 0x5
  else if m = "set_mode" then some 0x6
  else if m = "get_mode" then some 0x7
  else if m = "set_alliance" then some 0x8
  else if m = "set_position" then some 0x9
  else if m = "set_dout" then some 0xA
  else if m = "set_aout" then some 0xB
  else if m = "set_axis" then some 0xC
  else if m = "set_button" then some 0xD
  else if m = "encode" then some 0xE
  else if m = "next_packet" then some 0xE
  else none

/-- The command of an opcode and its operands, in the operand order of R105. -/
def asmCommand (op : BitVec 4) (args : List AsmOperand) : Option Instr :=
  match op.toNat, args with
  | 0x1, [t] => (asmNat 65535 t).map fun n => .init (BitVec.ofNat 16 n)
  | 0x2, [v] => (asmBool v).map .setEstop
  | 0x3, [] => some .getEstop
  | 0x4, [v] => (asmBool v).map .setEnabled
  | 0x5, [] => some .getEnabled
  | 0x6, [m] => (asmMode m).map .setMode
  | 0x7, [] => some .getMode
  | 0x8, [al] => (asmAlliance al).map .setAlliance
  | 0x9, [p] => (asmInt p).map .setPosition
  | 0xA, [c, v] => (asmNat 255 c).bind fun ch => (asmBool v).map fun b => .setDout ch b
  | 0xB, [c, v] => (asmNat 255 c).bind fun ch => (asmInt v).map fun x => .setAout ch x
  | 0xC, [j, k, v] =>
    (asmNat 15 j).bind fun jj => (asmNat 255 k).bind fun kk => (asmInt v).map fun x => .setAxis jj kk x
  | 0xD, [j, n, v] =>
    (asmNat 15 j).bind fun jj => (asmNat 255 n).bind fun nn => (asmBool v).map fun b => .setButton jj nn b
  | 0xE, [] => some .encode
  | _, _ => none

/-- One assembler line: the command word, or no word for an assembly error (R105, R106). -/
def assemble (mnemonic : String) (args : List AsmOperand) : Option Word :=
  (mnemonicOpcode mnemonic).bind fun op => (asmCommand op args).map encodeInstr

end Sys2Proof.Machine
end

