-- ==== Sys2Proof/Machine/Serial.lean ====
section
/-! DEFINITION. The byte-serial encoder of 45_encode.md R189: the hidden state of 10_state.md R41 (a byte cursor and a
CRC accumulator) and its beats. It is no part of State or of the step, which performs ENCODE in one transition (R180;
log 8); it stands here so that the two can be compared: R189 accepts any implementation whose final registers, buffer
and response equal those of R180. -/

namespace Sys2Proof.Machine

/-- The hidden state while an ENCODE is in progress (R41, R189). -/
structure SerialEncoder where
  /-- the registers and `INDEX` latched at the start: the snapshot -/
  snap : State
  /-- the byte cursor: the number of beats done, 0..1024 -/
  cur : Nat
  /-- the CRC accumulator -/
  acc : Word
  /-- the buffer while it is being overwritten -/
  buf : Memory
  deriving DecidableEq, Repr

/-- `at start acc <- 0xFFFFFFFF, the registers and INDEX are latched` (R189). -/
def serialStart (s : State) : SerialEncoder := { snap := s, cur := 0, acc := crcInit, buf := s.buf }

/-- One beat (R189): a packed byte at 0..1019, a zero byte into the accumulator only at 1020..1023. -/
def serialBeat (e : SerialEncoder) : SerialEncoder :=
  if e.cur < 1020 then
    { e with
      cur := e.cur + 1
      acc := crcByte e.acc (packByte e.snap e.snap.index e.cur)
      buf := e.buf.write e.cur (packByte e.snap e.snap.index e.cur) }
  else { e with cur := e.cur + 1, acc := crcByte e.acc 0 }

/-- `n` beats. -/
def serialBeats : Nat → SerialEncoder → SerialEncoder
  | 0, e => e
  | n + 1, e => serialBeats n (serialBeat e)

/-- `after beat 1023`: the checksum is written, `INDEX` advances, `BUF_VALID` is set (R189). -/
def serialFinish (e : SerialEncoder) : State :=
  { e.snap with
    buf := e.buf.memWrite 1020 4 (e.acc ^^^ crcXorOut).toNat
    index := nextIndex e.snap.index
    bufValid := true }

/-- The 1024 beats of one packet and its end (R189). -/
def serialEncode (s : State) : State := serialFinish (serialBeats bufBytes (serialStart s))

end Sys2Proof.Machine
end

