-- ==== Sys2Proof/Safety.lean ====
section
/-! DEFINITION. The terms claims about the block are made in: legal words and out-of-range indices as the spec's tables
give them (independently of the decoder), the invariants of 10_state.md section 6, what a valid buffer holds, sequences
of commands, and which part of the state a setter writes. -/

namespace Sys2Proof.Machine

/-! ## Words, by the tables of the spec -/

/-- The table of 30_encoding.md R99, `In full`: when a command word is legal. -/
def legalWord (w : Word) : Bool :=
  let a := (aField w).toNat
  let b := (bField w).toNat
  let imm := (immField w).toNat
  match (opField w).toNat with
  | 0x0 => false
  | 0x1 => a == 0 && b == 0
  | 0x2 => a == 0 && b == 0 && imm ≤ 1
  | 0x3 => a == 0 && b == 0 && imm == 0
  | 0x4 => a == 0 && b == 0 && imm ≤ 1
  | 0x5 => a == 0 && b == 0 && imm == 0
  | 0x6 => a == 0 && b == 0 && imm ≤ 2
  | 0x7 => a == 0 && b == 0 && imm == 0
  | 0x8 => a == 0 && b == 0 && imm ≤ 1
  | 0x9 => a == 0 && b == 0
  | 0xA => a == 0 && imm ≤ 1
  | 0xB => a == 0
  | 0xC => true
  | 0xD => imm ≤ 1
  | 0xE => a == 0 && b == 0 && imm == 0
  | _ => false

/-- The table of 60_exceptions.md R211: when a legal word's index operand is out of range. -/
def wordOutOfRange (w : Word) : Bool :=
  let a := (aField w).toNat
  let b := (bField w).toNat
  match (opField w).toNat with
  | 0xA => b == 0 || b > 8
  | 0xB => b == 0 || b > 4
  | 0xC => a == 0 || a > 4 || b == 0 || b > 6
  | 0xD => a == 0 || a > 4 || b == 0 || b > 16
  | _ => false

/-- The status code of the response to a command word, by the decode order of 30_encoding.md R103. -/
def expectedStatus (s : State) (w : Word) : Nat :=
  if s.fatal then 2
  else if !legalWord w then 3
  else if (opField w).toNat != 1 && !s.session then 4
  else if wordOutOfRange w then 1
  else 0

/-- R211 on commands: every index operand lies in its domain. -/
def indicesInRange : Instr → Bool
  | .setDout ch _ => decide (1 ≤ ch ∧ ch ≤ 8)
  | .setAout ch _ => decide (1 ≤ ch ∧ ch ≤ 4)
  | .setAxis j k _ => decide (1 ≤ j ∧ j ≤ 4 ∧ 1 ≤ k ∧ k ≤ 6)
  | .setButton j n _ => decide (1 ≤ j ∧ j ≤ 4 ∧ 1 ≤ n ∧ n ≤ 16)
  | .init _ => true
  | .setEstop _ => true
  | .getEstop => true
  | .setEnabled _ => true
  | .getEnabled => true
  | .setMode _ => true
  | .getMode => true
  | .setAlliance _ => true
  | .setPosition _ => true
  | .encode => true

/-- INIT, the one command accepted without a session (R120). -/
def isInit : Instr → Bool
  | .init _ => true
  | _ => false

/-! ## States -/

/-- Steps 1 and 3 of R103 pass: a session exists and the block is not fatal. -/
abbrev State.Live (s : State) : Prop := s.fatal = false ∧ s.session = true

/-- R35: every analog register holds 0..1023. -/
abbrev State.AnalogInRange (s : State) : Prop := ∀ c : Fin 4, s.aout[c].toNat ≤ 1023

/-- R36: `CF.auto` and `CF.test` are never both 1. -/
abbrev State.ModeBitsExclusive (s : State) : Prop :=
  s.cf &&& s.cfg.autoMask = 0 ∨ s.cf &&& s.cfg.testMask = 0

/-- R37: `ALLI` is 82 or 66, and `POS` is 48, 49 or 50. -/
abbrev State.StationLegal (s : State) : Prop :=
  (s.alli = 82 ∨ s.alli = 66) ∧ (s.pos = 48 ∨ s.pos = 49 ∨ s.pos = 50)

/-- R38: the unassigned bits of `CF` are 0. -/
abbrev State.UnassignedBitsZero (s : State) : Prop :=
  s.cf &&& ~~~(s.cfg.estopMask ||| s.cfg.enabledMask ||| s.cfg.autoMask ||| s.cfg.testMask) = 0

/-- The invariants of 10_state.md section 6, which hold `When SESSION = 1`, under a legal choice of parameters (R8). -/
abbrev State.SessionInvariant (s : State) : Prop :=
  s.cfg.wellFormed = true ∧
    (s.session = true → s.AnalogInRange ∧ s.ModeBitsExclusive ∧ s.StationLegal ∧ s.UnassignedBitsZero)

/-- `a complete packet` (R33, R39, R67, R190): all 1024 bytes stand in the buffer, the unlisted ones zero, the tag at
72..79, and the bytes at 1020..1023 are the checksum a receiver recomputes. -/
def Memory.HoldsPacket (m : Memory) : Prop :=
  (∀ off, off < 1024 → (m.read off).isSome = true) ∧
  (∀ off, 48 ≤ off ∧ off ≤ 71 ∨ 80 ≤ off ∧ off ≤ 1019 → m.read off = some 0) ∧
  m.readBytes 72 8 = some [0x30, 0x32, 0x31, 0x32, 0x31, 0x33, 0x30, 0x30] ∧
  ∃ body, m.readBytes 0 1020 = some body ∧ m.memRead 1020 4 = some (crc32 (body ++ [0, 0, 0, 0])).toNat

/-- R33: `BUF_VALID` is 1 only in a session, with a complete packet in the buffer. -/
def State.BufferInvariant (s : State) : Prop := s.bufValid = true → s.session = true ∧ s.buf.HoldsPacket

/-- R100, R101: bits 27..16 zero, one of the five statuses, data 0 unless the status is `OK`. -/
abbrev responseWellFormed (r : Word) : Prop :=
  r.extractLsb' 16 12 = 0 ∧ (r.extractLsb' 28 4).toNat ≤ 4 ∧
    (r.extractLsb' 28 4 ≠ 0 → r.extractLsb' 0 16 = 0)

/-- Steps 1 and 3 of R103 for a command other than INIT: what it answers in the fatal state (R216) and without a session
(R214), nothing else changed. -/
abbrev RefusedOutOfSession (i : Instr) : Prop :=
  (∀ s : State, s.fatal = true → exec i s = .next (s.answered 0x20000000#32)) ∧
  (∀ s : State, s.fatal = false → s.session = false → exec i s = .next (s.answered 0x40000000#32))

/-- R99, R213 for the words of one opcode: they are commands exactly where `legal` holds, and any other of them is answered
`IllegalCommand` unless the block is fatal, nothing else changed. -/
abbrev LegalExactlyWhen (op : BitVec 4) (legal : Word → Prop) : Prop :=
  ∀ w : Word, opField w = op →
    ((∃ i, decode w = .ok i) ↔ legal w) ∧
    (¬ legal w → ∀ s : State, s.fatal = false → acceptCommand w s = .next (s.answered 0x30000000#32))

/-! ## Sequences of commands (R12: they take effect in the order they are accepted) -/

/-- The commands executed one after the other. -/
def execAll : List Instr → State → Result
  | [], s => .next s
  | i :: is, s =>
    match exec i s with
    | .next t => execAll is t
    | .fault r => .fault r
    | .refused r => .refused r

/-- The six commands of 41_control_flags.md. -/
def isControlFlagCommand : Instr → Bool
  | .setEstop _ => true
  | .getEstop => true
  | .setEnabled _ => true
  | .getEnabled => true
  | .setMode _ => true
  | .getMode => true
  | _ => false

/-- The part of the PacketState a setter writes (70_reset_and_hazards.md R242: `each writes its own field`). -/
inductive SetterField
  | estop
  | enabled
  | mode
  | alliance
  | position
  | dout (ch : Nat)
  | aout (ch : Nat)
  | axis (j k : Nat)
  | button (j n : Nat)
  deriving DecidableEq, Repr

/-- The field of each of the nine setters; the other commands are no setters. -/
def setterField : Instr → Option SetterField
  | .setEstop _ => some .estop
  | .setEnabled _ => some .enabled
  | .setMode _ => some .mode
  | .setAlliance _ => some .alliance
  | .setPosition _ => some .position
  | .setDout ch _ => some (.dout ch)
  | .setAout ch _ => some (.aout ch)
  | .setAxis j k _ => some (.axis j k)
  | .setButton j n _ => some (.button j n)
  | .init _ => none
  | .getEstop => none
  | .getEnabled => none
  | .getMode => none
  | .encode => none

end Sys2Proof.Machine
end

