-- ==== Sys2Proof/Certificates/Slice0/Obligations.lean ====
section
/-! DEFINITION. The statements for the provers. Each docstring names the rule of spec/ it formalises. -/

open Sys2Proof Sys2Proof.Machine

/-! ## Command words -/

/-- 30_encoding.md R90, R97, R105: the word of a well-formed command decodes to that command, every operand at every
value its field admits. -/
def Obligations.DecodeOfEncodedCommand : Prop :=
  ∀ i : Instr, i.wellFormed = true → decode (encodeInstr i) = .ok i

/-- 30_encoding.md R90, R91, R97: a word that decodes is the word of the command it decodes to, and that command is
well-formed; so no two words are one command, and no bit of a word is ignored. -/
def Obligations.EncodeOfDecodedWord : Prop :=
  ∀ (w : Word) (i : Instr), decode w = .ok i → i.wellFormed = true ∧ encodeInstr i = w

/-- R99: a word decodes exactly when the table of R99 calls it legal (`legalWord` is that table), so opcodes 0x0 and 0xF
never do (R98), nor a word with a non-zero unused field (R91). -/
def Obligations.DecoderAcceptsExactlyTheLegalWords : Prop :=
  (∀ w : Word, (∃ i, decode w = .ok i) ↔ legalWord w = true) ∧
  (∀ w : Word, opField w = 0x0 ∨ opField w = 0xF → decode w = .error .reservedOpcode)

/-- Words written out from R97 and R105, one for each command. -/
def Obligations.KnownWordsDecode : Prop :=
  decode 0x1000045A#32 = .ok (.init 1114) ∧ decode 0x20000001#32 = .ok (.setEstop true) ∧
  decode 0x30000000#32 = .ok .getEstop ∧ decode 0x40000000#32 = .ok (.setEnabled false) ∧
  decode 0x50000000#32 = .ok .getEnabled ∧ decode 0x60000002#32 = .ok (.setMode .test) ∧
  decode 0x70000000#32 = .ok .getMode ∧ decode 0x80000001#32 = .ok (.setAlliance .blue) ∧
  decode 0x9000FFFF#32 = .ok (.setPosition (-1)) ∧ decode 0xA0080001#32 = .ok (.setDout 8 true) ∧
  decode 0xB004FFFB#32 = .ok (.setAout 4 (-5)) ∧ decode 0xC406FF80#32 = .ok (.setAxis 4 6 (-128)) ∧
  decode 0xD2100001#32 = .ok (.setButton 2 16 true) ∧ decode 0xE0000000#32 = .ok .encode ∧
  decode 0x60000003#32 = .error .immediateNotInKind ∧ decode 0x1100045A#32 = .error .unusedFieldNotZero

/-- R105, R106, on lines given as tokens (log 14): the word of every line of the assembler, `next_packet` as `encode`, and
no word (an assembly error) for an integer outside its range, a boolean other than 0 and 1, or a mode or alliance name
outside the table. -/
def Obligations.AssemblerLinesGiveTheirWords : Prop :=
  (∀ t : Int, assemble "init" [.int t] =
    if 0 ≤ t ∧ t ≤ 65535 then some (0x10000000#32 ||| BitVec.ofInt 32 t) else none) ∧
  (∀ v : Int, assemble "set_estop" [.int v] =
    if v = 0 ∨ v = 1 then some (0x20000000#32 ||| BitVec.ofInt 32 v) else none) ∧
  assemble "get_estop" [] = some 0x30000000#32 ∧
  (∀ v : Int, assemble "set_enabled" [.int v] =
    if v = 0 ∨ v = 1 then some (0x40000000#32 ||| BitVec.ofInt 32 v) else none) ∧
  assemble "get_enabled" [] = some 0x50000000#32 ∧
  (∀ x : String, assemble "set_mode" [.name x] =
    if x = "teleop" then some 0x60000000#32
    else if x = "autonomous" then some 0x60000001#32
    else if x = "test" then some 0x60000002#32
    else none) ∧
  assemble "get_mode" [] = some 0x70000000#32 ∧
  (∀ x : String, assemble "set_alliance" [.name x] =
    if x = "red" then some 0x80000000#32 else if x = "blue" then some 0x80000001#32 else none) ∧
  (∀ p : Int, assemble "set_position" [.int p] =
    if -32768 ≤ p ∧ p ≤ 32767 then some (0x90000000#32 ||| BitVec.ofInt 32 (p % 65536)) else none) ∧
  (∀ ch v : Int, assemble "set_dout" [.int ch, .int v] =
    if (0 ≤ ch ∧ ch ≤ 255) ∧ (v = 0 ∨ v = 1)
    then some (0xA0000000#32 ||| (BitVec.ofInt 32 ch <<< 16) ||| BitVec.ofInt 32 v) else none) ∧
  (∀ ch v : Int, assemble "set_aout" [.int ch, .int v] =
    if (0 ≤ ch ∧ ch ≤ 255) ∧ -32768 ≤ v ∧ v ≤ 32767
    then some (0xB0000000#32 ||| (BitVec.ofInt 32 ch <<< 16) ||| BitVec.ofInt 32 (v % 65536)) else none) ∧
  (∀ j k v : Int, assemble "set_axis" [.int j, .int k, .int v] =
    if (0 ≤ j ∧ j ≤ 15) ∧ (0 ≤ k ∧ k ≤ 255) ∧ -32768 ≤ v ∧ v ≤ 32767
    then some (0xC0000000#32 ||| (BitVec.ofInt 32 j <<< 24) ||| (BitVec.ofInt 32 k <<< 16) |||
      BitVec.ofInt 32 (v % 65536)) else none) ∧
  (∀ j n v : Int, assemble "set_button" [.int j, .int n, .int v] =
    if (0 ≤ j ∧ j ≤ 15) ∧ (0 ≤ n ∧ n ≤ 255) ∧ (v = 0 ∨ v = 1)
    then some (0xD0000000#32 ||| (BitVec.ofInt 32 j <<< 24) ||| (BitVec.ofInt 32 n <<< 16) ||| BitVec.ofInt 32 v)
    else none) ∧
  assemble "encode" [] = some 0xE0000000#32 ∧
  assemble "next_packet" [] = some 0xE0000000#32

/-! ## Accepting a command -/

/-- A step whose next input is a word that decodes is the execution of that command, on the state without that input;
so is a step on the word of a well-formed command. -/
def Obligations.StepRunsTheDecodedCommand : Prop :=
  (∀ (s : State) (w : Word) (rest : List Input) (i : Instr),
    s.inputs = .command w :: rest → decode w = .ok i → step s = exec i { s with inputs := rest }) ∧
  (∀ (s : State) (rest : List Input) (i : Instr),
    s.inputs = .command (encodeInstr i) :: rest → i.wellFormed = true → step s = exec i { s with inputs := rest })

/-- R103: the status of every command word's response, by the first test that fails (`expectedStatus`); and unless the
status is `OK`, the response carries data 0 and nothing else changes but the input taken; if it is, the word's command
is executed. -/
def Obligations.DecodeOrderDecidesTheResponse : Prop :=
  ∀ (s : State) (w : Word) (rest : List Input), s.inputs = .command w :: rest →
    ∃ t r, step s = .next t ∧ t.inputs = rest ∧ t.responses = s.responses ++ [r] ∧
      (r.extractLsb' 28 4).toNat = expectedStatus s w ∧
      (expectedStatus s w ≠ 0 → r = BitVec.ofNat 32 (expectedStatus s w) <<< 28 ∧
        t = { s with inputs := rest, responses := s.responses ++ [r] }) ∧
      (expectedStatus s w = 0 → ∃ i, decode w = .ok i ∧ exec i { s with inputs := rest } = .next t)

/-- R100: every accepted command produces exactly one response word, of the format of R100. -/
def Obligations.OneResponsePerCommand : Prop :=
  ∀ (s : State) (w : Word) (rest : List Input), s.inputs = .command w :: rest →
    ∃ t r, step s = .next t ∧ t.responses = s.responses ++ [r] ∧ responseWellFormed r

/-- R213: a word that R99 does not list as legal is answered `IllegalCommand`, and `InvariantViolation` in the fatal
state; nothing else changes but the input taken. -/
def Obligations.IllegalWordsAreRejected : Prop :=
  ∀ (s : State) (w : Word) (rest : List Input), s.inputs = .command w :: rest → legalWord w = false →
    step s = .next { s with
      inputs := rest
      responses := s.responses ++ [if s.fatal then 0x20000000#32 else 0x30000000#32] }

/-- R216: in the fatal state every command word, legal or not, INIT included, is answered `InvariantViolation` and changes
nothing. That no step enters or leaves that state is the model's, not R216's: entering it needs an index of 65536 or more,
which the 16-bit `INDEX` cannot hold (log 9), and leaving it needs hardware reset, which is no step (log 11). -/
def Obligations.FatalStateRefusesEveryWord : Prop :=
  (∀ (s : State) (w : Word) (rest : List Input), s.inputs = .command w :: rest → s.fatal = true →
    step s = .next { s with inputs := rest, responses := s.responses ++ [0x20000000#32] }) ∧
  (∀ s t : State, step s = .next t → t.fatal = s.fatal)

/-- R11, R212: what raising `InvariantViolation` does, on every state: `FATAL` is set, the response is (2, 0), and no
register, flag or buffer byte changes. -/
def Obligations.InvariantViolationSetsFatalOnly : Prop :=
  ∀ s : State, raiseInvariantViolation s =
    .next { s with fatal := true, responses := s.responses ++ [0x20000000#32] }

/-- R214: without a session every command but INIT is answered `NoSession`, nothing else changed. -/
def Obligations.NoSessionRefusesAllButInit : Prop :=
  ∀ (i : Instr) (s : State), isInit i = false → s.fatal = false → s.session = false →
    exec i s = .next { s with responses := s.responses ++ [0x40000000#32] }

/-- R211: `OutOfRange` for each of the four commands with an index, exactly on the indices of its table, whatever the
value operand; nothing else changes, and no command with its indices in range raises it. -/
def Obligations.OutOfRangeIndicesAreRejected : Prop :=
  (∀ (s : State) (ch : Nat) (v : Bool), s.Live →
    (ch = 0 ∨ ch > 8 ↔ exec (.setDout ch v) s = .next (s.answered 0x10000000#32))) ∧
  (∀ (s : State) (ch : Nat) (v : Int), s.Live →
    (ch = 0 ∨ ch > 4 ↔ exec (.setAout ch v) s = .next (s.answered 0x10000000#32))) ∧
  (∀ (s : State) (j k : Nat) (v : Int), s.Live →
    (j = 0 ∨ j > 4 ∨ k = 0 ∨ k > 6 ↔ exec (.setAxis j k v) s = .next (s.answered 0x10000000#32))) ∧
  (∀ (s : State) (j n : Nat) (v : Bool), s.Live →
    (j = 0 ∨ j > 4 ∨ n = 0 ∨ n > 16 ↔ exec (.setButton j n v) s = .next (s.answered 0x10000000#32))) ∧
  (∀ (i : Instr) (s t : State), indicesInRange i = true → exec i s = .next t →
    t.responses ≠ s.responses ++ [0x10000000#32])

/-- R188, R221: in a session every command whose indices are in range completes with an `OK` response. -/
def Obligations.EveryCommandCompletesInSession : Prop :=
  ∀ (i : Instr) (s : State), s.Live → indicesInRange i = true →
    ∃ t r, exec i s = .next t ∧ t.responses = s.responses ++ [r] ∧ r.extractLsb' 28 4 = 0 ∧ t.fatal = false ∧
      t.session = true

/-- The issuer's next command word is never a reason to stop: a command word always gives a next state, and a read stops
only at a buffer that is not valid, given the invariant of the buffer. With nothing waiting the block is idle, which the
model reads from R224 and R241 (log 5, DEDUCED); that a read of a buffer that is not valid is refused is the treatment
R244 and U6 ask of a model (log 7). -/
def Obligations.StepStopsOnlyAtAnInvalidBuffer : Prop :=
  (∀ s : State, s.inputs = [] → step s = .next s) ∧
  (∀ (s : State) (f : Fault), s.BufferInvariant → step s ≠ .fault f) ∧
  (∀ (s : State) (r : Refusal), step s = .refused r ↔
    r = .bufferNotValid ∧ s.bufValid = false ∧ ∃ off rest, s.inputs = .readByte off :: rest)

/-! ## The transport -/

/-- R65: a read of a valid buffer gives the byte at its offset and changes no state of the block, whatever comes after it;
and the same read again gives the same byte. -/
def Obligations.TransportReadGivesTheByte : Prop :=
  (∀ (s : State) (off : BitVec 10) (rest : List Input) (b : Byte),
    s.inputs = .readByte off :: rest → s.bufValid = true → s.buf.read off.toNat = some b →
    step s = .next { s with inputs := rest, readData := s.readData ++ [b] }) ∧
  (∀ (s : State) (off : BitVec 10) (rest : List Input) (b : Byte),
    s.inputs = .readByte off :: .readByte off :: rest → s.bufValid = true → s.buf.read off.toNat = some b →
    ∃ t, step s = .next t ∧ step t = .next { s with inputs := rest, readData := s.readData ++ [b, b] })

/-! ## The commands, one rule each -/

/-- R120: INIT. -/
def Obligations.InitRule : Prop :=
  (∀ team : Half, encodeInstr (.init team) = 0x10000000#32 ||| team.setWidth 32) ∧
  (LegalExactlyWhen 0x1 fun w => aField w = 0 ∧ bField w = 0) ∧
  (∀ (team : Half) (s : State), s.fatal = true → exec (.init team) s = .next (s.answered 0x20000000#32)) ∧
  (∀ (team : Half) (s : State), s.fatal = false →
    exec (.init team) s = .next { s with
      cf := 0x00
      dout := 0x00
      aout := #v[0, 0, 0, 0]
      alli := s.cfg.resetAlliance
      pos := s.cfg.resetPosition
      axis := #v[#v[0, 0, 0, 0, 0, 0], #v[0, 0, 0, 0, 0, 0], #v[0, 0, 0, 0, 0, 0], #v[0, 0, 0, 0, 0, 0]]
      btn := #v[0, 0, 0, 0]
      team := team
      index := 0
      session := true
      bufValid := false
      responses := s.responses ++ [0x00000000#32] })

/-- R130: SET_ESTOP. -/
def Obligations.SetEstopRule : Prop :=
  (∀ v : Bool, encodeInstr (.setEstop v) = 0x20000000#32 ||| if v then 1 else 0) ∧
  (LegalExactlyWhen 0x2 fun w => aField w = 0 ∧ bField w = 0 ∧ (immField w).toNat ≤ 1) ∧
  (∀ v : Bool, RefusedOutOfSession (.setEstop v)) ∧
  (∀ (v : Bool) (s : State), s.Live →
    exec (.setEstop v) s = .next { s with
      cf := if v then s.cf ||| s.cfg.estopMask else s.cf &&& ~~~s.cfg.estopMask
      responses := s.responses ++ [0x00000000#32] })

/-- R131: GET_ESTOP, with the bit test of R136. -/
def Obligations.GetEstopRule : Prop :=
  encodeInstr .getEstop = 0x30000000#32 ∧
  (LegalExactlyWhen 0x3 fun w => aField w = 0 ∧ bField w = 0 ∧ immField w = 0) ∧
  RefusedOutOfSession .getEstop ∧
  (∀ s : State, s.Live →
    exec .getEstop s = .next (s.answered (if s.cf &&& s.cfg.estopMask ≠ 0 then 0x00000001#32 else 0x00000000#32)))

/-- R132: SET_ENABLED. -/
def Obligations.SetEnabledRule : Prop :=
  (∀ v : Bool, encodeInstr (.setEnabled v) = 0x40000000#32 ||| if v then 1 else 0) ∧
  (LegalExactlyWhen 0x4 fun w => aField w = 0 ∧ bField w = 0 ∧ (immField w).toNat ≤ 1) ∧
  (∀ v : Bool, RefusedOutOfSession (.setEnabled v)) ∧
  (∀ (v : Bool) (s : State), s.Live →
    exec (.setEnabled v) s = .next { s with
      cf := if v then s.cf ||| s.cfg.enabledMask else s.cf &&& ~~~s.cfg.enabledMask
      responses := s.responses ++ [0x00000000#32] })

/-- R133: GET_ENABLED, with the bit test of R136. -/
def Obligations.GetEnabledRule : Prop :=
  encodeInstr .getEnabled = 0x50000000#32 ∧
  (LegalExactlyWhen 0x5 fun w => aField w = 0 ∧ bField w = 0 ∧ immField w = 0) ∧
  RefusedOutOfSession .getEnabled ∧
  (∀ s : State, s.Live →
    exec .getEnabled s = .next (s.answered (if s.cf &&& s.cfg.enabledMask ≠ 0 then 0x00000001#32 else 0x00000000#32)))

/-- R134: SET_MODE. -/
def Obligations.SetModeRule : Prop :=
  (encodeInstr (.setMode .teleop) = 0x60000000#32 ∧ encodeInstr (.setMode .autonomous) = 0x60000001#32 ∧
    encodeInstr (.setMode .test) = 0x60000002#32) ∧
  (LegalExactlyWhen 0x6 fun w => aField w = 0 ∧ bField w = 0 ∧ (immField w).toNat ≤ 2) ∧
  (∀ m : Mode, RefusedOutOfSession (.setMode m)) ∧
  (∀ (m : Mode) (s : State), s.Live →
    exec (.setMode m) s = .next { s with
      cf := match m with
        | .teleop => s.cf &&& ~~~(s.cfg.autoMask ||| s.cfg.testMask)
        | .autonomous => (s.cf &&& ~~~(s.cfg.autoMask ||| s.cfg.testMask)) ||| s.cfg.autoMask
        | .test => (s.cf &&& ~~~(s.cfg.autoMask ||| s.cfg.testMask)) ||| s.cfg.testMask
      responses := s.responses ++ [0x00000000#32] })

/-- 41_control_flags.md, GET_MODE (R135), with the bit test of R136. Which of the two modes it answers with both bits set
is the spec's own choice (D15; log 10) and no proof may rest on it (93_implementation_defined.md U4), so the first of the
two results has the invariant of R36 as a premise (`SessionInvariantIsKept` keeps it); with both bits set the command
completes all the same, with one of the three codes. -/
def Obligations.GetModeRule : Prop :=
  encodeInstr .getMode = 0x70000000#32 ∧
  (LegalExactlyWhen 0x7 fun w => aField w = 0 ∧ bField w = 0 ∧ immField w = 0) ∧
  RefusedOutOfSession .getMode ∧
  (∀ s : State, s.Live → s.ModeBitsExclusive →
    exec .getMode s = .next (s.answered (
      if s.cf &&& s.cfg.autoMask ≠ 0 then 0x00000001#32
      else if s.cf &&& s.cfg.testMask ≠ 0 then 0x00000002#32
      else 0x00000000#32))) ∧
  (∀ s : State, s.Live →
    ∃ r, (r = 0x00000000#32 ∨ r = 0x00000001#32 ∨ r = 0x00000002#32) ∧ exec .getMode s = .next (s.answered r))

/-- R150: SET_ALLIANCE. -/
def Obligations.SetAllianceRule : Prop :=
  (encodeInstr (.setAlliance .red) = 0x80000000#32 ∧ encodeInstr (.setAlliance .blue) = 0x80000001#32) ∧
  (LegalExactlyWhen 0x8 fun w => aField w = 0 ∧ bField w = 0 ∧ (immField w).toNat ≤ 1) ∧
  (∀ al : Alliance, RefusedOutOfSession (.setAlliance al)) ∧
  (∀ (al : Alliance) (s : State), s.Live →
    exec (.setAlliance al) s = .next { s with
      alli := match al with
        | .red => 82
        | .blue => 66
      responses := s.responses ++ [0x00000000#32] })

/-- R151: SET_POSITION, every integer accepted. -/
def Obligations.SetPositionRule : Prop :=
  (∀ p : Int, -32768 ≤ p → p ≤ 32767 →
    encodeInstr (.setPosition p) = 0x90000000#32 ||| BitVec.ofInt 32 (p % 65536)) ∧
  (LegalExactlyWhen 0x9 fun w => aField w = 0 ∧ bField w = 0) ∧
  (∀ p : Int, RefusedOutOfSession (.setPosition p)) ∧
  (∀ (p : Int) (s : State), s.Live →
    exec (.setPosition p) s = .next { s with
      pos := if p = 2 then 49 else if p = 3 then 50 else 48
      responses := s.responses ++ [0x00000000#32] })

/-- R160: SET_DOUT. -/
def Obligations.SetDoutRule : Prop :=
  (∀ (ch : Nat) (v : Bool), ch ≤ 255 →
    encodeInstr (.setDout ch v) = 0xA0000000#32 ||| (BitVec.ofNat 32 ch <<< 16) ||| if v then 1 else 0) ∧
  (LegalExactlyWhen 0xA fun w => aField w = 0 ∧ (immField w).toNat ≤ 1) ∧
  (∀ (ch : Nat) (v : Bool), RefusedOutOfSession (.setDout ch v)) ∧
  (∀ (ch : Nat) (v : Bool) (s : State), s.Live → ch = 0 ∨ 9 ≤ ch →
    exec (.setDout ch v) s = .next (s.answered 0x10000000#32)) ∧
  (∀ (ch : Nat) (v : Bool) (s : State), s.Live → 1 ≤ ch → ch ≤ 8 →
    ∃ d : Byte, exec (.setDout ch v) s = .next { s with
        dout := d
        responses := s.responses ++ [0x00000000#32] } ∧
      ∀ n, n < 8 → d.getLsbD n = if n = ch - 1 then v else s.dout.getLsbD n)

/-- R161: SET_AOUT. -/
def Obligations.SetAoutRule : Prop :=
  (∀ (ch : Nat) (v : Int), ch ≤ 255 → -32768 ≤ v → v ≤ 32767 →
    encodeInstr (.setAout ch v) = 0xB0000000#32 ||| (BitVec.ofNat 32 ch <<< 16) ||| BitVec.ofInt 32 (v % 65536)) ∧
  (LegalExactlyWhen 0xB fun w => aField w = 0) ∧
  (∀ (ch : Nat) (v : Int), RefusedOutOfSession (.setAout ch v)) ∧
  (∀ (ch : Nat) (v : Int) (s : State), s.Live → ch = 0 ∨ 5 ≤ ch →
    exec (.setAout ch v) s = .next (s.answered 0x10000000#32)) ∧
  (∀ (c : Fin 4) (v : Int) (s : State), s.Live →
    ∃ x : Half, exec (.setAout (c + 1) v) s = .next { s with
        aout := s.aout.set c x
        responses := s.responses ++ [0x00000000#32] } ∧
      (x.toNat : Int) = max 0 (min v 1023))

/-- R170: SET_AXIS. -/
def Obligations.SetAxisRule : Prop :=
  (∀ (j k : Nat) (v : Int), j ≤ 15 → k ≤ 255 → -32768 ≤ v → v ≤ 32767 →
    encodeInstr (.setAxis j k v) = 0xC0000000#32 ||| (BitVec.ofNat 32 j <<< 24) ||| (BitVec.ofNat 32 k <<< 16) |||
      BitVec.ofInt 32 (v % 65536)) ∧
  (∀ w : Word, opField w = 0xC → ∃ i, decode w = .ok i) ∧
  (∀ (j k : Nat) (v : Int), RefusedOutOfSession (.setAxis j k v)) ∧
  (∀ (j k : Nat) (v : Int) (s : State), s.Live → j = 0 ∨ 5 ≤ j ∨ k = 0 ∨ 7 ≤ k →
    exec (.setAxis j k v) s = .next (s.answered 0x10000000#32)) ∧
  (∀ (j : Fin 4) (k : Fin 6) (v : Int) (s : State), s.Live →
    ∃ x : Byte, exec (.setAxis (j + 1) (k + 1) v) s = .next { s with
        axis := s.axis.set j (s.axis[j].set k x)
        responses := s.responses ++ [0x00000000#32] } ∧
      x.toInt = max (-128) (min v 127))

/-- R171: SET_BUTTON. -/
def Obligations.SetButtonRule : Prop :=
  (∀ (j n : Nat) (v : Bool), j ≤ 15 → n ≤ 255 →
    encodeInstr (.setButton j n v) = 0xD0000000#32 ||| (BitVec.ofNat 32 j <<< 24) ||| (BitVec.ofNat 32 n <<< 16) |||
      if v then 1 else 0) ∧
  (LegalExactlyWhen 0xD fun w => (immField w).toNat ≤ 1) ∧
  (∀ (j n : Nat) (v : Bool), RefusedOutOfSession (.setButton j n v)) ∧
  (∀ (j n : Nat) (v : Bool) (s : State), s.Live → j = 0 ∨ 5 ≤ j ∨ n = 0 ∨ 17 ≤ n →
    exec (.setButton j n v) s = .next (s.answered 0x10000000#32)) ∧
  (∀ (j : Fin 4) (n : Nat) (v : Bool) (s : State), s.Live → 1 ≤ n → n ≤ 16 →
    ∃ x : Half, exec (.setButton (j + 1) n v) s = .next { s with
        btn := s.btn.set j x
        responses := s.responses ++ [0x00000000#32] } ∧
      ∀ p, p < 16 → x.getLsbD p = if p = n - 1 then v else s.btn[j].getLsbD p)

/-- R180: ENCODE, less what stands in the buffer (the three statements after this one). Its frame: every register but
`INDEX` and `BUF_VALID` is unchanged, and no byte outside the 1024 of the buffer is written. -/
def Obligations.EncodeRule : Prop :=
  encodeInstr .encode = 0xE0000000#32 ∧
  (LegalExactlyWhen 0xE fun w => aField w = 0 ∧ bField w = 0 ∧ immField w = 0) ∧
  RefusedOutOfSession .encode ∧
  (∀ s : State, s.Live →
    ∃ m : Memory, exec .encode s = .next { s with
        buf := m
        index := BitVec.ofNat 16 ((s.index.toNat + 1) % 65536)
        bufValid := true
        responses := s.responses ++ [s.index.setWidth 32] } ∧
      (∀ off, off < 1024 → (m.read off).isSome = true) ∧
      (∀ off, 1024 ≤ off → m.read off = s.buf.read off))

/-- R66, R67, R63: the byte at every offset 0..1019 of the buffer after an ENCODE, in the closed form of R66: axis `k` of
joystick `j` at `8*j + k - 1`, its buttons at `8*j + 6` and `8*j + 7`, analog output `c` at `38 + 2*c` and `39 + 2*c`. -/
def Obligations.EncodeWritesTheWireLayout : Prop :=
  ∀ s : State, s.Live → ∃ t, exec .encode s = .next t ∧
    t.buf.read 0 = some ((s.index >>> 8).setWidth 8) ∧ t.buf.read 1 = some (s.index.setWidth 8) ∧
    t.buf.read 2 = some s.cf ∧ t.buf.read 3 = some s.dout ∧
    t.buf.read 4 = some ((s.team >>> 8).setWidth 8) ∧ t.buf.read 5 = some (s.team.setWidth 8) ∧
    t.buf.read 6 = some s.alli ∧ t.buf.read 7 = some s.pos ∧
    (∀ (j : Fin 4) (k : Fin 6), t.buf.read (8 * (j + 1) + (k + 1) - 1) = some s.axis[j][k]) ∧
    (∀ j : Fin 4, t.buf.read (8 * (j + 1) + 6) = some ((s.btn[j] >>> 8).setWidth 8) ∧
      t.buf.read (8 * (j + 1) + 7) = some (s.btn[j].setWidth 8)) ∧
    (∀ c : Fin 4, t.buf.read (38 + 2 * (c + 1)) = some ((s.aout[c] >>> 8).setWidth 8) ∧
      t.buf.read (39 + 2 * (c + 1)) = some (s.aout[c].setWidth 8)) ∧
    (∀ off, 48 ≤ off ∧ off ≤ 71 ∨ 80 ≤ off ∧ off ≤ 1019 → t.buf.read off = some 0x00) ∧
    t.buf.readBytes 72 8 = some [0x30, 0x32, 0x31, 0x32, 0x31, 0x33, 0x30, 0x30]

/-- R184, R185: the checksum covers bytes 0..1019 and four zero bytes, and stands big-endian at 1020..1023. -/
def Obligations.EncodeAppendsTheChecksum : Prop :=
  ∀ s : State, s.Live → ∃ t, exec .encode s = .next t ∧
    ∃ body : List Byte, body.length = 1020 ∧ t.buf.readBytes 0 1020 = some body ∧
      t.buf.read 1020 = some ((crc32 (body ++ [0, 0, 0, 0])).extractLsb' 24 8) ∧
      t.buf.read 1021 = some ((crc32 (body ++ [0, 0, 0, 0])).extractLsb' 16 8) ∧
      t.buf.read 1022 = some ((crc32 (body ++ [0, 0, 0, 0])).extractLsb' 8 8) ∧
      t.buf.read 1023 = some ((crc32 (body ++ [0, 0, 0, 0])).extractLsb' 0 8)

/-- R190: the values of the checksum that R190 lists. -/
def Obligations.ChecksumCheckValues : Prop :=
  crc32 [] = 0x00000000#32 ∧ crc32 [0x00] = 0xD202EF8D#32 ∧ crc32 [0x01] = 0xA505DF1B#32 ∧
  crc32 [0x61] = 0xE8B7BE43#32 ∧ crc32 [0x00, 0x00, 0x00, 0x00] = 0x2144DF1C#32 ∧
  crc32 [0x31, 0x32, 0x33, 0x34, 0x35, 0x36, 0x37, 0x38, 0x39] = 0xCBF43926#32

/-! ## Properties of the encoder -/

/-- R186: in `n` ENCODEs in a row, started in any session, packet number `k` carries index `INDEX + k` modulo 65536, the
last one in bytes 0 and 1 of the buffer, and afterwards `INDEX` has advanced by `n` modulo 65536; in a session, INIT
first and any other commands in any order after it, `INDEX` is the number of ENCODEs modulo 65536; an ENCODE that is answered with a fault does not advance it, and no other command does (INIT sets it to 0). -/
def Obligations.IndexCountsPackets : Prop :=
  (∀ (n : Nat) (s : State), s.Live →
    ∃ t, execAll (List.replicate n .encode) s = .next t ∧ t.Live ∧
      t.index = BitVec.ofNat 16 ((s.index.toNat + n) % 65536) ∧
      t.responses = s.responses ++
        (List.range n).map (fun k => BitVec.ofNat 32 ((s.index.toNat + k) % 65536)) ∧
      (∀ k, n = k + 1 →
        t.buf.read 0 = some (BitVec.ofNat 8 ((s.index.toNat + k) % 65536 / 256)) ∧
        t.buf.read 1 = some (BitVec.ofNat 8 ((s.index.toNat + k) % 65536 % 256)))) ∧
  (∀ (cs : List Instr) (team : Half) (s : State), s.fatal = false → (∀ c ∈ cs, isInit c = false) →
    ∃ t, execAll (.init team :: cs) s = .next t ∧ t.index = BitVec.ofNat 16 (cs.count .encode % 65536)) ∧
  (∀ s : State, ¬ s.Live → ∃ t, exec .encode s = .next t ∧ t.index = s.index) ∧
  (∀ (i : Instr) (s t : State), i ≠ .encode → exec i s = .next t → t.index = s.index ∨ (isInit i = true ∧ t.index = 0))

/-- R187: the 1024 bytes are a function of the packet registers, `TEAM` and the index alone; and the packets of two
ENCODEs in a row agree at offsets 2..1019. -/
def Obligations.EncodeIsDeterministic : Prop :=
  (∀ s s' : State, s.Live → s'.Live →
    s.cf = s'.cf → s.dout = s'.dout → s.aout = s'.aout → s.alli = s'.alli → s.pos = s'.pos → s.axis = s'.axis →
    s.btn = s'.btn → s.team = s'.team → s.index = s'.index →
    ∃ t t', exec .encode s = .next t ∧ exec .encode s' = .next t' ∧
      ∀ off, off < 1024 → t.buf.read off = t'.buf.read off) ∧
  (∀ s : State, s.Live → ∃ t u, exec .encode s = .next t ∧ exec .encode t = .next u ∧
    ∀ off, 2 ≤ off → off ≤ 1019 → u.buf.read off = t.buf.read off)

/-- 44_joysticks.md (R172, a consequence the spec marks derived): a digital output or a button that is set reads back in
the next packet. -/
def Obligations.BitsReadBackInThePacket : Prop :=
  (∀ (s : State) (ch : Nat) (v : Bool), s.Live → 1 ≤ ch → ch ≤ 8 →
    ∃ t b, execAll [.setDout ch v, .encode] s = .next t ∧ t.buf.read 3 = some b ∧ b.getLsbD (ch - 1) = v) ∧
  (∀ (s : State) (j n : Nat) (v : Bool), s.Live → 1 ≤ j → j ≤ 4 → 1 ≤ n → n ≤ 16 →
    ∃ t b, execAll [.setButton j n v, .encode] s = .next t ∧
      t.buf.read (if n ≤ 8 then 8 * j + 7 else 8 * j + 6) = some b ∧ b.getLsbD ((n - 1) % 8) = v)

/-- 95_test_vectors.md S2, S3: an analog value and an axis value arrive on the wire clamped. -/
def Obligations.ClampedValuesArriveOnTheWire : Prop :=
  (∀ (s : State) (c : Nat) (v : Int), s.Live → 1 ≤ c → c ≤ 4 →
    ∃ t hi lo, execAll [.setAout c v, .encode] s = .next t ∧ t.buf.read (38 + 2 * c) = some hi ∧
      t.buf.read (39 + 2 * c) = some lo ∧ ((256 * hi.toNat + lo.toNat : Nat) : Int) = max 0 (min v 1023)) ∧
  (∀ (s : State) (j k : Nat) (v : Int), s.Live → 1 ≤ j → j ≤ 4 → 1 ≤ k → k ≤ 6 →
    ∃ t b, execAll [.setAxis j k v, .encode] s = .next t ∧ t.buf.read (8 * j + k - 1) = some b ∧
      (b.toNat : Int) = max (-128) (min v 127) % 256)

/-- R189: the byte-serial encoder, 1024 beats with a cursor and an accumulator, ends with the registers and the buffer of
R180, from any state whose buffer is in canonical form. `serialEncode` makes no response: the one of R180, the index
before, is written out here. -/
def Obligations.SerialEncoderRefinesEncode : Prop :=
  ∀ s : State, s.Live → s.buf.wf →
    exec .encode s = .next { serialEncode s with responses := s.responses ++ [s.index.setWidth 32] }

/-! ## Properties of the setters -/

/-- 41_control_flags.md (R137a): after `set_estop v`, and any commands of that file that do not write the bit,
`get_estop` returns `v`; the same of `set_enabled` and `get_enabled`. -/
def Obligations.FlagsReadBack : Prop :=
  (∀ (s : State) (v : Bool) (cs : List Instr), s.Live → s.cfg.wellFormed = true →
    (∀ c ∈ cs, isControlFlagCommand c = true ∧ ∀ x, c ≠ .setEstop x) →
    ∃ t, execAll (.setEstop v :: cs) s = .next t ∧
      exec .getEstop t = .next (t.answered (if v then 0x00000001#32 else 0x00000000#32))) ∧
  (∀ (s : State) (v : Bool) (cs : List Instr), s.Live → s.cfg.wellFormed = true →
    (∀ c ∈ cs, isControlFlagCommand c = true ∧ ∀ x, c ≠ .setEnabled x) →
    ∃ t, execAll (.setEnabled v :: cs) s = .next t ∧
      exec .getEnabled t = .next (t.answered (if v then 0x00000001#32 else 0x00000000#32)))

/-- 41_control_flags.md (R137b): `setMode` then `getMode` returns the mode set, and never are both mode bits set after
it; after INIT and before any SET_MODE, `getMode` returns TELEOP. -/
def Obligations.ModeReadsBack : Prop :=
  (∀ (s : State) (m : Mode), s.Live → s.cfg.wellFormed = true →
    ∃ t, exec (.setMode m) s = .next t ∧ t.ModeBitsExclusive ∧
      exec .getMode t = .next (t.answered (
        match m with
        | .teleop => 0x00000000#32
        | .autonomous => 0x00000001#32
        | .test => 0x00000002#32))) ∧
  (∀ (s : State) (team : Half), s.fatal = false →
    ∃ t, exec (.init team) s = .next t ∧ exec .getMode t = .next (t.answered 0x00000000#32))

/-- 70_reset_and_hazards.md R242, with 41_control_flags.md (R137c): two setters of different fields, all indices in
range, commute: in either order they end in the same state. -/
def Obligations.SettersOfDifferentFieldsCommute : Prop :=
  ∀ (s : State) (i i' : Instr) (f f' : SetterField), s.Live → s.cfg.wellFormed = true →
    setterField i = some f → setterField i' = some f' → f ≠ f' →
    indicesInRange i = true → indicesInRange i' = true →
    ∃ t, execAll [i, i'] s = .next t ∧ execAll [i', i] s = .next t

/-- R130 to R171 (`idempotent`), R180 (`the only command that is not idempotent`): a command other than ENCODE, executed
again at once, changes nothing but the list of responses; ENCODE advances the index each time. -/
def Obligations.AllButEncodeAreIdempotent : Prop :=
  (∀ (i : Instr) (s t : State), i ≠ .encode → s.Live → exec i s = .next t →
    ∃ u, exec i t = .next u ∧ u = { t with responses := u.responses }) ∧
  (∀ s t : State, s.Live → exec .encode s = .next t → t.index ≠ s.index)

/-- R93, R94: an issuer that saturates a wider integer and sends 0 for an index that does not fit always has a command
word to send, and the block does with it what the command with the wider operands asks for. -/
def Obligations.SaturationByTheIssuerLosesNothing : Prop :=
  ∀ i : Instr, (fitOperands i).wellFormed = true ∧ ∀ s : State, exec (fitOperands i) s = exec i s

/-! ## Whole-machine rules -/

/-- R121: no command but INIT writes `TEAM`, and every packet carries it in bytes 4 and 5; INIT sets it and the packet
index. -/
def Obligations.TeamIsImmutableInASession : Prop :=
  (∀ (i : Instr) (s t : State), isInit i = false → exec i s = .next t → t.team = s.team) ∧
  (∀ s : State, s.Live → ∃ t, exec .encode s = .next t ∧
    ∃ hi lo : Byte, t.buf.read 4 = some hi ∧ t.buf.read 5 = some lo ∧ 256 * hi.toNat + lo.toNat = s.team.toNat) ∧
  (∀ (team : Half) (s : State), s.fatal = false →
    ∃ t, exec (.init team) s = .next t ∧ t.team = team ∧ t.index = 0)

/-- R122: nothing of the session before survives an INIT but the bytes of the buffer, which are not valid: from any two
states that are not fatal and have the same parameters, it leaves the same registers and flags. -/
def Obligations.SessionsAreIndependent : Prop :=
  ∀ (team : Half) (s s' : State), s.fatal = false → s'.fatal = false → s.cfg = s'.cfg →
    ∃ t t', exec (.init team) s = .next t ∧ exec (.init team) s' = .next t' ∧ t.buf = s.buf ∧ t.bufValid = false ∧
      t = { t' with buf := t.buf, inputs := t.inputs, responses := t.responses, readData := t.readData }

/-- The table of R20, column `written by`: which commands may change each register, flag and the buffer. -/
def Obligations.OnlyListedCommandsWriteEachRegister : Prop :=
  ∀ (i : Instr) (s t : State), exec i s = .next t →
    (match i with | .init _ | .setEstop _ | .setEnabled _ | .setMode _ => True | _ => t.cf = s.cf) ∧
    (match i with | .init _ | .setDout _ _ => True | _ => t.dout = s.dout) ∧
    (match i with | .init _ | .setAout _ _ => True | _ => t.aout = s.aout) ∧
    (match i with | .init _ | .setAlliance _ => True | _ => t.alli = s.alli) ∧
    (match i with | .init _ | .setPosition _ => True | _ => t.pos = s.pos) ∧
    (match i with | .init _ | .setAxis _ _ _ => True | _ => t.axis = s.axis) ∧
    (match i with | .init _ | .setButton _ _ _ => True | _ => t.btn = s.btn) ∧
    (match i with | .init _ => True | _ => t.team = s.team) ∧
    (match i with | .init _ | .encode => True | _ => t.index = s.index) ∧
    (match i with | .init _ => True | _ => t.session = s.session) ∧
    (match i with | .init _ | .encode => True | _ => t.bufValid = s.bufValid) ∧
    (match i with | .encode => True | _ => t.buf = s.buf ∧ t.fatal = s.fatal) ∧
    t.inputs = s.inputs ∧ t.readData = s.readData ∧ t.cfg = s.cfg ∧ ∃ r, t.responses = s.responses ++ [r]

/-- R35 to R38: every step keeps the invariants of the registers in a session, under a legal choice of parameters (R8). -/
def Obligations.SessionInvariantIsKept : Prop :=
  ∀ s t : State, s.SessionInvariant → step s = .next t → t.SessionInvariant

/-- The buffer's canonical form is kept by every step (R39, R60: offsets 0..1023 and no others). -/
def Obligations.BufferStaysCanonical : Prop :=
  ∀ s t : State, s.buf.wf → step s = .next t → t.buf.wf

/-- R33, R39, R67, R190: every step keeps it that a valid buffer is a buffer of the current session, all 1024 bytes of it
written, with the zero fill, the tag and a checksum that a receiver finds right. -/
def Obligations.ValidBufferHoldsACompletePacket : Prop :=
  ∀ s t : State, s.BufferInvariant → step s = .next t → t.BufferInvariant

/-- Every response word on the port keeps the format of R100 and R101. -/
def Obligations.ResponsesStayWellFormed : Prop :=
  ∀ s t : State, (∀ r ∈ s.responses, responseWellFormed r) → step s = .next t → ∀ r ∈ t.responses, responseWellFormed r

/-! ## Reset -/

/-- R240: what hardware reset leaves: no session, no valid buffer, not fatal, no response pending; every command but INIT
is answered `NoSession` and changes nothing else, INIT completes, and a buffer read is refused (R244; log 7). -/
def Obligations.HardwareResetLeavesNoSession : Prop :=
  State.reset.session = false ∧ State.reset.bufValid = false ∧ State.reset.fatal = false ∧
  State.reset.responses = [] ∧
  (∀ i : Instr, isInit i = false → exec i State.reset = .next { State.reset with responses := [0x40000000#32] }) ∧
  (∀ team : Half, ∃ t, exec (.init team) State.reset = .next t ∧ t.session = true ∧ t.team = team ∧ t.index = 0 ∧
    t.responses = [0x00000000#32]) ∧
  (∀ off : BitVec 10, step { State.reset with inputs := [.readByte off] } = .refused .bufferNotValid)

/-- The three invariants hold at reset (with the default parameters, log 1). -/
def Obligations.InvariantsHoldAtReset : Prop :=
  State.reset.SessionInvariant ∧ State.reset.buf.wf ∧ State.reset.BufferInvariant ∧
  ∀ r ∈ State.reset.responses, responseWellFormed r
end

