-- ==== Sys2Proof/Laws/State.lean ====
section
/-! SUPPORT. Beside State: one lemma for each field under each named update of a state, so that no later proof unfolds a
record update. -/

namespace Sys2Proof.Machine

variable (s : State)

/-! ## State.answered -/

@[simp] theorem State.answered_cf (r : Word) : (s.answered r).cf = s.cf := rfl
@[simp] theorem State.answered_dout (r : Word) : (s.answered r).dout = s.dout := rfl
@[simp] theorem State.answered_aout (r : Word) : (s.answered r).aout = s.aout := rfl
@[simp] theorem State.answered_alli (r : Word) : (s.answered r).alli = s.alli := rfl
@[simp] theorem State.answered_pos (r : Word) : (s.answered r).pos = s.pos := rfl
@[simp] theorem State.answered_axis (r : Word) : (s.answered r).axis = s.axis := rfl
@[simp] theorem State.answered_btn (r : Word) : (s.answered r).btn = s.btn := rfl
@[simp] theorem State.answered_team (r : Word) : (s.answered r).team = s.team := rfl
@[simp] theorem State.answered_index (r : Word) : (s.answered r).index = s.index := rfl
@[simp] theorem State.answered_session (r : Word) : (s.answered r).session = s.session := rfl
@[simp] theorem State.answered_bufValid (r : Word) : (s.answered r).bufValid = s.bufValid := rfl
@[simp] theorem State.answered_fatal (r : Word) : (s.answered r).fatal = s.fatal := rfl
@[simp] theorem State.answered_buf (r : Word) : (s.answered r).buf = s.buf := rfl
@[simp] theorem State.answered_inputs (r : Word) : (s.answered r).inputs = s.inputs := rfl
@[simp] theorem State.answered_responses (r : Word) : (s.answered r).responses = s.responses ++ [r] := rfl
@[simp] theorem State.answered_readData (r : Word) : (s.answered r).readData = s.readData := rfl
@[simp] theorem State.answered_cfg (r : Word) : (s.answered r).cfg = s.cfg := rfl

/-! ## State.respond -/

@[simp] theorem State.respond_cf (st : Status) (d : Half) : (s.respond st d).cf = s.cf := rfl
@[simp] theorem State.respond_dout (st : Status) (d : Half) : (s.respond st d).dout = s.dout := rfl
@[simp] theorem State.respond_aout (st : Status) (d : Half) : (s.respond st d).aout = s.aout := rfl
@[simp] theorem State.respond_alli (st : Status) (d : Half) : (s.respond st d).alli = s.alli := rfl
@[simp] theorem State.respond_pos (st : Status) (d : Half) : (s.respond st d).pos = s.pos := rfl
@[simp] theorem State.respond_axis (st : Status) (d : Half) : (s.respond st d).axis = s.axis := rfl
@[simp] theorem State.respond_btn (st : Status) (d : Half) : (s.respond st d).btn = s.btn := rfl
@[simp] theorem State.respond_team (st : Status) (d : Half) : (s.respond st d).team = s.team := rfl
@[simp] theorem State.respond_index (st : Status) (d : Half) : (s.respond st d).index = s.index := rfl
@[simp] theorem State.respond_session (st : Status) (d : Half) : (s.respond st d).session = s.session := rfl
@[simp] theorem State.respond_bufValid (st : Status) (d : Half) : (s.respond st d).bufValid = s.bufValid := rfl
@[simp] theorem State.respond_fatal (st : Status) (d : Half) : (s.respond st d).fatal = s.fatal := rfl
@[simp] theorem State.respond_buf (st : Status) (d : Half) : (s.respond st d).buf = s.buf := rfl
@[simp] theorem State.respond_inputs (st : Status) (d : Half) : (s.respond st d).inputs = s.inputs := rfl
@[simp] theorem State.respond_responses (st : Status) (d : Half) : (s.respond st d).responses = s.responses ++ [responseWord st d] := rfl
@[simp] theorem State.respond_readData (st : Status) (d : Half) : (s.respond st d).readData = s.readData := rfl
@[simp] theorem State.respond_cfg (st : Status) (d : Half) : (s.respond st d).cfg = s.cfg := rfl

/-! ## freshSession -/

@[simp] theorem freshSession_cf (team : Half) : (freshSession team s).cf = 0 := rfl
@[simp] theorem freshSession_dout (team : Half) : (freshSession team s).dout = 0 := rfl
@[simp] theorem freshSession_aout (team : Half) : (freshSession team s).aout = .replicate 4 0 := rfl
@[simp] theorem freshSession_alli (team : Half) : (freshSession team s).alli = s.cfg.resetAlliance := rfl
@[simp] theorem freshSession_pos (team : Half) : (freshSession team s).pos = s.cfg.resetPosition := rfl
@[simp] theorem freshSession_axis (team : Half) : (freshSession team s).axis = .replicate 4 (.replicate 6 0) := rfl
@[simp] theorem freshSession_btn (team : Half) : (freshSession team s).btn = .replicate 4 0 := rfl
@[simp] theorem freshSession_team (team : Half) : (freshSession team s).team = team := rfl
@[simp] theorem freshSession_index (team : Half) : (freshSession team s).index = 0 := rfl
@[simp] theorem freshSession_session (team : Half) : (freshSession team s).session = true := rfl
@[simp] theorem freshSession_bufValid (team : Half) : (freshSession team s).bufValid = false := rfl
@[simp] theorem freshSession_fatal (team : Half) : (freshSession team s).fatal = s.fatal := rfl
@[simp] theorem freshSession_buf (team : Half) : (freshSession team s).buf = s.buf := rfl
@[simp] theorem freshSession_inputs (team : Half) : (freshSession team s).inputs = s.inputs := rfl
@[simp] theorem freshSession_responses (team : Half) : (freshSession team s).responses = s.responses := rfl
@[simp] theorem freshSession_readData (team : Half) : (freshSession team s).readData = s.readData := rfl
@[simp] theorem freshSession_cfg (team : Half) : (freshSession team s).cfg = s.cfg := rfl

/-! ## encodePacket -/

@[simp] theorem encodePacket_cf : (encodePacket s).cf = s.cf := rfl
@[simp] theorem encodePacket_dout : (encodePacket s).dout = s.dout := rfl
@[simp] theorem encodePacket_aout : (encodePacket s).aout = s.aout := rfl
@[simp] theorem encodePacket_alli : (encodePacket s).alli = s.alli := rfl
@[simp] theorem encodePacket_pos : (encodePacket s).pos = s.pos := rfl
@[simp] theorem encodePacket_axis : (encodePacket s).axis = s.axis := rfl
@[simp] theorem encodePacket_btn : (encodePacket s).btn = s.btn := rfl
@[simp] theorem encodePacket_team : (encodePacket s).team = s.team := rfl
@[simp] theorem encodePacket_index : (encodePacket s).index = nextIndex s.index := rfl
@[simp] theorem encodePacket_session : (encodePacket s).session = s.session := rfl
@[simp] theorem encodePacket_bufValid : (encodePacket s).bufValid = true := rfl
@[simp] theorem encodePacket_fatal : (encodePacket s).fatal = s.fatal := rfl
@[simp] theorem encodePacket_buf : (encodePacket s).buf = storePacket s.buf (packBytes s s.index) := by
  simp only [encodePacket]
@[simp] theorem encodePacket_inputs : (encodePacket s).inputs = s.inputs := rfl
@[simp] theorem encodePacket_responses : (encodePacket s).responses = s.responses := rfl
@[simp] theorem encodePacket_readData : (encodePacket s).readData = s.readData := rfl
@[simp] theorem encodePacket_cfg : (encodePacket s).cfg = s.cfg := rfl

/-! ## State.withFetchWord -/

@[simp] theorem State.withFetchWord_cf (nbits w : Nat) : (s.withFetchWord nbits w).cf = s.cf := rfl
@[simp] theorem State.withFetchWord_dout (nbits w : Nat) : (s.withFetchWord nbits w).dout = s.dout := rfl
@[simp] theorem State.withFetchWord_aout (nbits w : Nat) : (s.withFetchWord nbits w).aout = s.aout := rfl
@[simp] theorem State.withFetchWord_alli (nbits w : Nat) : (s.withFetchWord nbits w).alli = s.alli := rfl
@[simp] theorem State.withFetchWord_pos (nbits w : Nat) : (s.withFetchWord nbits w).pos = s.pos := rfl
@[simp] theorem State.withFetchWord_axis (nbits w : Nat) : (s.withFetchWord nbits w).axis = s.axis := rfl
@[simp] theorem State.withFetchWord_btn (nbits w : Nat) : (s.withFetchWord nbits w).btn = s.btn := rfl
@[simp] theorem State.withFetchWord_team (nbits w : Nat) : (s.withFetchWord nbits w).team = s.team := rfl
@[simp] theorem State.withFetchWord_index (nbits w : Nat) : (s.withFetchWord nbits w).index = s.index := rfl
@[simp] theorem State.withFetchWord_session (nbits w : Nat) : (s.withFetchWord nbits w).session = s.session := rfl
@[simp] theorem State.withFetchWord_bufValid (nbits w : Nat) : (s.withFetchWord nbits w).bufValid = s.bufValid := rfl
@[simp] theorem State.withFetchWord_fatal (nbits w : Nat) : (s.withFetchWord nbits w).fatal = s.fatal := rfl
@[simp] theorem State.withFetchWord_buf (nbits w : Nat) : (s.withFetchWord nbits w).buf = s.buf := rfl
@[simp] theorem State.withFetchWord_inputs (nbits w : Nat) : (s.withFetchWord nbits w).inputs = .command (tableWord nbits w) :: s.inputs := rfl
@[simp] theorem State.withFetchWord_responses (nbits w : Nat) : (s.withFetchWord nbits w).responses = s.responses := rfl
@[simp] theorem State.withFetchWord_readData (nbits w : Nat) : (s.withFetchWord nbits w).readData = s.readData := rfl
@[simp] theorem State.withFetchWord_cfg (nbits w : Nat) : (s.withFetchWord nbits w).cfg = s.cfg := rfl

/-! ## Responses accumulate -/

@[simp] theorem State.answered_answered (r r' : Word) :
    (s.answered r).answered r' = { s with responses := s.responses ++ [r, r'] } := by
  simp [State.answered]

theorem State.respond_eq (st : Status) (d : Half) : s.respond st d = s.answered (responseWord st d) := rfl

end Sys2Proof.Machine
end

