-- ==== Sys2Proof/Laws/Answers.lean ====
section
/-! SUPPORT. What the shared operations that end a command can do: answer, fault, and the tests of R103. -/

namespace Sys2Proof.Machine

variable {s t : State}

@[simp] theorem complete_eq (s : State) (d : Half) : complete s d = .next (s.respond .ok d) := rfl

@[simp] theorem raise_eq (st : Status) (s : State) : raise st s = .next (s.respond st 0) := rfl

/-- The one fault that leaves a trace in the state (R212). -/
theorem raiseInvariantViolation_eq (s : State) :
    raiseInvariantViolation s = .next { s with fatal := true, responses := s.responses ++ [0x20000000#32] } := rfl

theorem unlessFatal_fatal (h : s.fatal = true) (r : Result) :
    unlessFatal s r = .next (s.respond .invariantViolation 0) := by simp [unlessFatal, h]

theorem unlessFatal_of_not_fatal (h : s.fatal = false) (r : Result) : unlessFatal s r = r := by simp [unlessFatal, h]

theorem inSession_fatal (h : s.fatal = true) (r : Result) :
    inSession s r = .next (s.respond .invariantViolation 0) := unlessFatal_fatal h _

theorem inSession_noSession (h : s.fatal = false) (h' : s.session = false) (r : Result) :
    inSession s r = .next (s.respond .noSession 0) := by simp [inSession, unlessFatal_of_not_fatal h, h']

theorem inSession_live (h : s.fatal = false) (h' : s.session = true) (r : Result) : inSession s r = r := by
  simp [inSession, unlessFatal_of_not_fatal h, h']

/-- What INIT's guard can do. -/
theorem unlessFatal_cases {r : Result} (h : unlessFatal s r = .next t) :
    (s.fatal = true ∧ t = s.respond .invariantViolation 0) ∨ (s.fatal = false ∧ r = .next t) := by
  cases hf : s.fatal
  · rw [unlessFatal_of_not_fatal hf] at h; exact .inr ⟨rfl, h⟩
  · rw [unlessFatal_fatal hf] at h; injection h with h; exact .inl ⟨rfl, h.symm⟩

/-- What the guard of every other command can do. -/
theorem inSession_cases {r : Result} (h : inSession s r = .next t) :
    (s.fatal = true ∧ t = s.respond .invariantViolation 0) ∨
    (s.fatal = false ∧ s.session = false ∧ t = s.respond .noSession 0) ∨
    (s.fatal = false ∧ s.session = true ∧ r = .next t) := by
  rcases unlessFatal_cases h with h | ⟨hf, h⟩
  · exact .inl h
  · cases hs : s.session
    · simp [hs] at h; exact .inr (.inl ⟨hf, rfl, h.symm⟩)
    · simp [hs] at h; exact .inr (.inr ⟨hf, rfl, h⟩)

theorem rejectIllegal_eq (s : State) :
    rejectIllegal s = .next (s.respond (if s.fatal then .invariantViolation else .illegalCommand) 0) := by
  cases h : s.fatal <;> simp [rejectIllegal, unlessFatal, h]

/-! ## Response words (R100) -/

@[simp] theorem responseWord_status (st : Status) (d : Half) : (responseWord st d).extractLsb' 28 4 = st.code := by
  ext i hi
  simp [responseWord, show 28 + i < 32 by omega, d.getLsbD_of_ge (28 + i) (by omega), BitVec.getLsbD_eq_getElem hi]

@[simp] theorem responseWord_zero (st : Status) (d : Half) : (responseWord st d).extractLsb' 16 12 = 0 := by
  ext i hi
  simp [responseWord, BitVec.getLsbD_setWidth, show 16 + i < 28 by omega]

@[simp] theorem responseWord_data (st : Status) (d : Half) : (responseWord st d).extractLsb' 0 16 = d := by
  ext i hi
  simp [responseWord, hi, show i < 28 by omega, show i < 32 by omega]

/-- An `OK` response is its data. -/
theorem responseWord_ok (d : Half) : responseWord .ok d = d.setWidth 32 := by
  simp [responseWord, Status.code]

end Sys2Proof.Machine
end

