-- ==== Sys2Proof/Laws/Encoding.lean ====
section
/-! SUPPORT. The laws of command words: the fields of a packed word, and each kind of immediate read back. -/

namespace Sys2Proof

variable (op a : BitVec 4) (b : Byte) (imm : Half)

@[simp] theorem opField_packWord : opField (packWord op a b imm) = op := by
  ext i hi
  simp [opField, packWord, show 28 + i < 32 by omega, show ¬ 28 + i < 24 by omega, show ¬ 28 + i < 16 by omega,
    a.getLsbD_of_ge (28 + i - 24) (by omega), b.getLsbD_of_ge (28 + i - 16) (by omega),
    imm.getLsbD_of_ge (28 + i) (by omega), BitVec.getLsbD_eq_getElem hi]

@[simp] theorem aField_packWord : aField (packWord op a b imm) = a := by
  ext i hi
  simp [aField, packWord, show 24 + i < 32 by omega, show 24 + i < 28 by omega, show ¬ 24 + i < 16 by omega,
    b.getLsbD_of_ge (24 + i - 16) (by omega), imm.getLsbD_of_ge (24 + i) (by omega), BitVec.getLsbD_eq_getElem hi]

@[simp] theorem bField_packWord : bField (packWord op a b imm) = b := by
  ext i hi
  simp [bField, packWord, show 16 + i < 32 by omega, show 16 + i < 28 by omega, show 16 + i < 24 by omega,
    BitVec.getLsbD_eq_getElem hi]

@[simp] theorem immField_packWord : immField (packWord op a b imm) = imm := by
  ext i hi
  simp [immField, packWord, show i < 32 by omega, show i < 28 by omega, show i < 24 by omega, hi]

/-- A word is its four fields. -/
theorem packWord_fields (w : Word) : packWord (opField w) (aField w) (bField w) (immField w) = w := by
  ext i hi
  simp only [packWord, opField, aField, bField, immField, BitVec.getElem_or, BitVec.getElem_shiftLeft,
    BitVec.getElem_setWidth, BitVec.getLsbD_extractLsb']
  rw [← BitVec.getLsbD_eq_getElem]
  by_cases h1 : i < 16
  · simp [h1, show i < 28 by omega, show i < 24 by omega]
  · by_cases h2 : i < 24
    · simp [h1, h2, show i < 28 by omega, show i - 16 < 8 by omega,
        show 16 + (i - 16) = i by omega]
    · by_cases h3 : i < 28
      · simp [h1, h2, h3, show i - 24 < 4 by omega, show ¬ i - 16 < 8 by omega,
          show 24 + (i - 24) = i by omega]
      · simp [h1, h2, h3, show i - 28 < 4 by omega, show ¬ i - 24 < 4 by omega,
          show ¬ i - 16 < 8 by omega, show 28 + (i - 28) = i by omega]

@[simp] theorem readBool_boolImm (v : Bool) : readBool (boolImm v) = some v := by cases v <;> rfl

@[simp] theorem readMode_code (m : Mode) : readMode m.code = some m := by cases m <;> rfl

@[simp] theorem readAlliance_code (al : Alliance) : readAlliance al.code = some al := by cases al <;> rfl

@[simp] theorem readNone_zero : readNone 0#16 = some () := rfl

/-- An integer of the operand range survives the immediate field. -/
theorem readInt_intImm {v : Int} (h : fitsInt v = true) : readInt (intImm v) = v := by
  simp only [fitsInt, Bool.and_eq_true, decide_eq_true_eq] at h
  simp only [readInt, intImm, BitVec.toInt_ofInt]
  exact Int.bmod_eq_of_le (by omega) (by omega)

theorem intImm_readInt (imm : Half) : intImm (readInt imm) = imm := by simp [intImm, readInt]

theorem fitsInt_readInt (imm : Half) : fitsInt (readInt imm) = true := by
  have h1 := BitVec.toInt_lt (x := imm)
  have h2 := BitVec.le_toInt (x := imm)
  have e : fitsInt imm.toInt = (decide (-32768 ≤ imm.toInt) && decide (imm.toInt ≤ 32767)) := rfl
  rw [readInt, e, decide_eq_true (by omega), decide_eq_true (by omega)]
  rfl

theorem readBool_eq_some {imm : Half} {v : Bool} : readBool imm = some v ↔ imm = boolImm v := by
  unfold readBool boolImm
  split_ifs with h1 h2 <;> cases v <;> simp_all

theorem readMode_eq_some {imm : Half} {m : Mode} : readMode imm = some m ↔ imm = m.code := by
  unfold readMode
  split_ifs with h1 h2 h3 <;> cases m <;> simp_all [Mode.code]

theorem readAlliance_eq_some {imm : Half} {al : Alliance} : readAlliance imm = some al ↔ imm = al.code := by
  unfold readAlliance
  split_ifs with h1 h2 <;> cases al <;> simp_all [Alliance.code]

theorem readNone_eq_some {imm : Half} {u : Unit} : readNone imm = some u ↔ imm = 0 := by
  unfold readNone
  split_ifs with h <;> simp_all

/-- When a row's unused fields are zero. -/
theorem requireUnused_eq_ok {c : Bool} {r : Except DecodeError Instr} {i : Instr} :
    requireUnused c r = .ok i ↔ c = true ∧ r = .ok i := by
  cases c <;> simp [requireUnused]

/-- When an immediate is in its kind. -/
theorem requireKind_eq_ok {α : Type} {v : Option α} {mk : α → Instr} {i : Instr} :
    requireKind v mk = .ok i ↔ ∃ x, v = some x ∧ mk x = i := by
  cases v <;> simp [requireKind]

end Sys2Proof
end

