-- ==== Sys2Proof/Laws/Operands.lean ====
section
/-! SUPPORT. The laws of operands and flags: the index domains, saturation, what setting a mask does to each bit, and
what a legal choice of masks gives. -/

namespace Sys2Proof.Machine

theorem indexIn_eq_some {n i : Nat} (h1 : 1 ≤ i) (h2 : i ≤ n) : indexIn n i = some ⟨i - 1, by omega⟩ :=
  dif_pos ⟨h1, h2⟩

theorem indexIn_eq_none {n i : Nat} (h : i = 0 ∨ n < i) : indexIn n i = none :=
  dif_neg (by omega)

@[simp] theorem indexIn_succ {n : Nat} (c : Fin n) : indexIn n (c.val + 1) = some c := by
  rw [indexIn_eq_some (by omega) (by omega)]
  rfl

theorem indexIn_cases (n i : Nat) :
    (indexIn n i = none ∧ (i = 0 ∨ n < i)) ∨ ∃ c : Fin n, indexIn n i = some c ∧ i = c.val + 1 := by
  by_cases h : 1 ≤ i ∧ i ≤ n
  · exact .inr ⟨⟨i - 1, by omega⟩, indexIn_eq_some h.1 h.2, by simp; omega⟩
  · exact .inl ⟨indexIn_eq_none (by omega), by omega⟩

theorem clamp_bounds (v lo hi : Int) (h : lo ≤ hi) : lo ≤ clamp v lo hi ∧ clamp v lo hi ≤ hi := by
  unfold clamp; split_ifs <;> omega

theorem clamp_of_mem {v lo hi : Int} (h1 : lo ≤ v) (h2 : v ≤ hi) : clamp v lo hi = v := by
  unfold clamp; split_ifs <;> omega

/-- An analog register holds the clamped value itself. -/
theorem analogValue_toNat (v : Int) : ((analogValue v).toNat : Int) = clamp v 0 1023 := by
  have := clamp_bounds v 0 1023 (by omega)
  simp only [analogValue, BitVec.toNat_ofInt]
  omega

/-- An axis register read as two's complement is the clamped value itself. -/
theorem axisValue_toInt (v : Int) : (axisValue v).toInt = clamp v (-128) 127 := by
  have := clamp_bounds v (-128) 127 (by omega)
  simp only [axisValue, BitVec.toInt_ofInt]
  exact Int.bmod_eq_of_le (by omega) (by omega)

theorem testMask_eq_false {w : Nat} {f m : BitVec w} : testMask f m = false ↔ f &&& m = 0 := by
  simp [testMask]

theorem testMask_eq_true {w : Nat} {f m : BitVec w} : testMask f m = true ↔ f &&& m ≠ 0 := by
  simp [testMask]

/-- Bit by bit: the bits of the mask take the value, the others stay. -/
theorem assignMask_getLsbD {w : Nat} (f m : BitVec w) (v : Bool) (n : Nat) :
    (assignMask f m v).getLsbD n = if m.getLsbD n then v else f.getLsbD n := by
  unfold assignMask
  by_cases h : n < w
  · cases v <;> cases hm : m.getLsbD n <;> cases hf : f.getLsbD n <;>
      simp [BitVec.getLsbD_and, BitVec.getLsbD_or, BitVec.getLsbD_not, hm, hf, h, -BitVec.getLsbD_eq_getElem]
  · cases v <;> simp [BitVec.getLsbD_of_ge _ _ (Nat.le_of_not_lt h)]

theorem bitMask_getLsbD (w n p : Nat) : (bitMask w n).getLsbD p = (decide (p < w) && decide (p = n)) := by
  unfold bitMask
  by_cases hp : p < w
  · rw [BitVec.getLsbD_shiftLeft]
    by_cases h : p < n
    · simp [hp, h, Nat.ne_of_lt h]
    · have : p - n = 0 ↔ p = n := by omega
      simp [hp, h, BitVec.getLsbD_one, this]
      omega
  · simp [hp, BitVec.getLsbD_of_ge _ _ (Nat.le_of_not_lt hp)]

/-- `assignMask` with a single-bit mask writes that bit and no other. -/
theorem assignMask_bitMask_getLsbD {w : Nat} (f : BitVec w) (n : Nat) (v : Bool) (p : Nat) (hp : p < w) :
    (assignMask f (bitMask w n) v).getLsbD p = if p = n then v else f.getLsbD p := by
  rw [assignMask_getLsbD, bitMask_getLsbD, decide_eq_true hp, Bool.true_and]
  simp only [decide_eq_true_eq]

end Sys2Proof.Machine

namespace Sys2Proof

theorem isSingleBit_iff (m : Byte) : isSingleBit m = true ↔ m ∈ [1, 2, 4, 8, 16, 32, 64, 128] := by
  revert m; decide +kernel

theorem isSingleBit_disjoint {m n : Byte} (hm : isSingleBit m = true) (hn : isSingleBit n = true) (h : m ≠ n) :
    m &&& n = 0 := by
  rw [isSingleBit_iff] at hm hn
  simp only [List.mem_cons, List.not_mem_nil, or_false] at hm hn
  rcases hm with rfl | rfl | rfl | rfl | rfl | rfl | rfl | rfl <;>
    rcases hn with rfl | rfl | rfl | rfl | rfl | rfl | rfl | rfl <;> first | rfl | exact absurd rfl h

theorem isSingleBit_ne_zero {m : Byte} (hm : isSingleBit m = true) : m ≠ 0 := by
  rintro rfl
  revert hm; decide

/-- What R8 gives of a legal choice of masks: each is one bit, and no two share it. -/
theorem Config.masks_of_wellFormed {c : Config} (h : c.wellFormed = true) :
    (c.estopMask ≠ 0 ∧ c.enabledMask ≠ 0 ∧ c.autoMask ≠ 0 ∧ c.testMask ≠ 0) ∧
    (c.estopMask &&& c.enabledMask = 0 ∧ c.estopMask &&& c.autoMask = 0 ∧ c.estopMask &&& c.testMask = 0) ∧
    (c.enabledMask &&& c.autoMask = 0 ∧ c.enabledMask &&& c.testMask = 0 ∧ c.autoMask &&& c.testMask = 0) := by
  simp only [Config.wellFormed, Config.masksOk, Bool.and_eq_true, bne_iff_ne] at h
  obtain ⟨⟨⟨⟨⟨⟨⟨⟨⟨⟨⟨h1, h2⟩, h3⟩, h4⟩, n12⟩, n13⟩, n14⟩, n23⟩, n24⟩, n34⟩, -⟩, -⟩ := h
  exact ⟨⟨isSingleBit_ne_zero h1, isSingleBit_ne_zero h2, isSingleBit_ne_zero h3, isSingleBit_ne_zero h4⟩,
    ⟨isSingleBit_disjoint h1 h2 n12, isSingleBit_disjoint h1 h3 n13, isSingleBit_disjoint h1 h4 n14⟩,
    ⟨isSingleBit_disjoint h2 h3 n23, isSingleBit_disjoint h2 h4 n24, isSingleBit_disjoint h3 h4 n34⟩⟩

end Sys2Proof
end

