-- ==== Sys2Proof/Laws/Memory.lean ====
section
/-! SUPPORT. The laws of the output buffer: read after write, the canonical form is kept, and canonical buffers that
read alike are equal. -/

namespace Sys2Proof.Machine

@[simp] theorem Memory.read_nil (o : Nat) : Memory.read [] o = none := rfl

theorem Memory.read_cons (a : Nat) (b : Byte) (m : Memory) (o : Nat) :
    Memory.read ((a, b) :: m) o = if a = o then some b else Memory.read m o := rfl

/-- A read after a write: the byte written at its place, what was there elsewhere. -/
theorem Memory.read_write (m : Memory) (o : Nat) (v : Byte) (p : Nat) :
    (m.write o v).read p = if p = o then some v else m.read p := by
  induction m with
  | nil => simp only [Memory.write, Memory.read_cons, Memory.read_nil, eq_comm]
  | cons c m ih =>
    obtain ⟨a, b⟩ := c
    simp only [Memory.write]
    split
    · simp only [Memory.read_cons, eq_comm]
    · split
      · next h => subst h; simp only [Memory.read_cons, eq_comm]; split <;> rfl
      · next h1 h2 =>
        simp only [Memory.read_cons, ih]
        split
        · next h3 => subst h3; rw [if_neg (fun h => h2 h.symm)]
        · rfl

/-- A run of bytes stored: its own bytes inside it, what was there outside. -/
theorem Memory.read_writeBytes (m : Memory) (o : Nat) (bs : List Byte) (p : Nat) :
    (m.writeBytes o bs).read p = if o ≤ p ∧ p < o + bs.length then bs[p - o]? else m.read p := by
  induction bs generalizing o with
  | nil => simp only [Memory.writeBytes, List.length_nil]; rw [if_neg (by omega)]
  | cons b bs ih =>
    simp only [Memory.writeBytes, Memory.read_write, ih, List.length_cons]
    by_cases h : p = o
    · subst h; simp
    · rw [if_neg h]
      by_cases h2 : o ≤ p
      · have e : p - o = (p - (o + 1)) + 1 := by omega
        by_cases h3 : p < o + (bs.length + 1)
        · rw [if_pos (by omega), if_pos (by omega), e, List.getElem?_cons_succ]
        · rw [if_neg (by omega), if_neg (by omega)]
      · rw [if_neg (by omega), if_neg (by omega)]

@[simp] theorem bigEndian_length (n v : Nat) : (bigEndian n v).length = n := by simp [bigEndian]

theorem bigEndian_getElem? (n v i : Nat) (h : i < n) :
    (bigEndian n v)[i]? = some (byteOf (v >>> (8 * (n - 1 - i)))) := by
  simp [bigEndian, h]

/-- The bytes `MemWrite` stores (R11). -/
theorem Memory.read_memWrite (m : Memory) (off n v p : Nat) :
    (m.memWrite off n v).read p =
      if off ≤ p ∧ p < off + n then some (byteOf (v >>> (8 * (n - 1 - (p - off))))) else m.read p := by
  simp only [Memory.memWrite, Memory.read_writeBytes, bigEndian_length]
  split
  · next h => rw [bigEndian_getElem? _ _ _ (by omega)]
  · rfl

/-- The offsets of a buffer after a write are the old ones and the one written. -/
theorem Memory.mem_write_fst {m : Memory} {o : Nat} {v : Byte} {c : Host.Cell} (h : c ∈ m.write o v) :
    c.1 = o ∨ ∃ d ∈ m, d.1 = c.1 := by
  induction m with
  | nil => simp [Memory.write] at h; left; rw [h]
  | cons d m ih =>
    obtain ⟨a, b⟩ := d
    simp only [Memory.write] at h
    split at h
    · rcases List.mem_cons.1 h with rfl | h
      · exact .inl rfl
      · exact .inr ⟨c, h, rfl⟩
    · split at h
      · rcases List.mem_cons.1 h with rfl | h
        · exact .inl rfl
        · exact .inr ⟨c, List.mem_cons_of_mem _ h, rfl⟩
      · rcases List.mem_cons.1 h with rfl | h
        · exact .inr ⟨(a, b), by simp, rfl⟩
        · rcases ih h with h | ⟨d, hd, e⟩
          · exact .inl h
          · exact .inr ⟨d, List.mem_cons_of_mem _ hd, e⟩

/-- A write inside the buffer keeps the canonical form. -/
theorem Memory.wf_write {m : Memory} (h : m.wf) {o : Nat} (ho : o < bufBytes) (v : Byte) : (m.write o v).wf := by
  refine ⟨?_, fun c hc => ?_⟩
  · obtain ⟨hs, -⟩ := h
    induction m with
    | nil => simp [Memory.write]
    | cons d m ih =>
      obtain ⟨a, b⟩ := d
      rw [List.map_cons, List.pairwise_cons] at hs
      simp only [Memory.write]
      split
      · next hlt =>
        rw [List.map_cons, List.pairwise_cons, List.map_cons, List.pairwise_cons]
        refine ⟨fun x hx => ?_, hs⟩
        rcases List.mem_cons.1 hx with rfl | hx
        · exact hlt
        · exact lt_trans hlt (hs.1 x hx)
      · split
        · next _ e =>
          rw [List.map_cons, List.pairwise_cons]
          exact ⟨fun x hx => e ▸ hs.1 x hx, hs.2⟩
        · next h1 h2 =>
          rw [List.map_cons, List.pairwise_cons]
          refine ⟨fun x hx => ?_, ih hs.2⟩
          obtain ⟨c, hc, rfl⟩ := List.mem_map.1 hx
          rcases Memory.mem_write_fst hc with e | ⟨d, hd, e⟩
          · show a < c.1; omega
          · have := hs.1 d.1 (List.mem_map_of_mem hd)
            show a < c.1; omega
  · rcases Memory.mem_write_fst hc with e | ⟨d, hd, e⟩
    · omega
    · rw [← e]; exact h.2 d hd

/-- A run of bytes stored inside the buffer keeps the canonical form. -/
theorem Memory.wf_writeBytes {m : Memory} (h : m.wf) {o : Nat} {bs : List Byte} (ho : o + bs.length ≤ bufBytes) :
    (m.writeBytes o bs).wf := by
  induction bs generalizing o with
  | nil => exact h
  | cons b bs ih =>
    rw [List.length_cons] at ho
    exact Memory.wf_write (ih (by omega)) (by omega) b

theorem Memory.wf_memWrite {m : Memory} (h : m.wf) {off n : Nat} (v : Nat) (ho : off + n ≤ bufBytes) :
    (m.memWrite off n v).wf :=
  Memory.wf_writeBytes h (by simpa using ho)

theorem Memory.read_eq_none_of_lt {m : Memory} {o : Nat} (h : ∀ c ∈ m, o < c.1) : m.read o = none := by
  induction m with
  | nil => rfl
  | cons c m ih =>
    obtain ⟨a, b⟩ := c
    have := h (a, b) (by simp)
    rw [Memory.read_cons, if_neg (by simp at this; omega), ih fun c hc => h c (List.mem_cons_of_mem _ hc)]

/-- Canonical buffers that read alike at every offset are the same list. -/
theorem Memory.ext_read {m m' : Memory} (h : m.wf) (h' : m'.wf) (e : ∀ o, m.read o = m'.read o) : m = m' := by
  obtain ⟨h, -⟩ := h
  obtain ⟨h', -⟩ := h'
  induction m generalizing m' with
  | nil =>
    cases m' with
    | nil => rfl
    | cons c m' => have := e c.1; rw [Memory.read_cons, if_pos rfl] at this; cases this
  | cons c m ih =>
    obtain ⟨a, b⟩ := c
    cases m' with
    | nil => have := e a; rw [Memory.read_cons, if_pos rfl] at this; cases this
    | cons c' m' =>
      obtain ⟨a', b'⟩ := c'
      rw [List.map_cons, List.pairwise_cons] at h h'
      have hm : ∀ c ∈ m, a < c.1 := fun c hc => h.1 _ (List.mem_map_of_mem hc)
      have hm' : ∀ c ∈ m', a' < c.1 := fun c hc => h'.1 _ (List.mem_map_of_mem hc)
      have ea : a = a' := by
        rcases lt_trichotomy a a' with hlt | heq | hlt
        · have := e a
          rw [Memory.read_cons, if_pos rfl, Memory.read_cons, if_neg (by omega),
            Memory.read_eq_none_of_lt fun c hc => by have := hm' c hc; omega] at this
          cases this
        · exact heq
        · have := e a'
          rw [Memory.read_cons, if_neg (by omega), Memory.read_cons, if_pos rfl,
            Memory.read_eq_none_of_lt fun c hc => by have := hm c hc; omega] at this
          cases this
      subst ea
      have eb : b = b' := by
        have := e a
        rwa [Memory.read_cons, if_pos rfl, Memory.read_cons, if_pos rfl, Option.some.injEq] at this
      subst eb
      congr 1
      refine ih (fun o => ?_) h.2 h'.2
      by_cases ho : a = o
      · subst ho; rw [Memory.read_eq_none_of_lt hm, Memory.read_eq_none_of_lt hm']
      · have := e o
        rwa [Memory.read_cons, if_neg ho, Memory.read_cons, if_neg ho] at this

/-- Reading a run of bytes back. -/
theorem Memory.readBytes_eq_some {m : Memory} {o : Nat} {bs : List Byte}
    (h : ∀ i, i < bs.length → m.read (o + i) = bs[i]?) : m.readBytes o bs.length = some bs := by
  induction bs generalizing o with
  | nil => rfl
  | cons b bs ih =>
    have h0 := h 0 (by simp)
    have hs := ih (o := o + 1) fun i hi => by
      have := h (i + 1) (by simpa using hi)
      rwa [List.getElem?_cons_succ, show o + (i + 1) = o + 1 + i by omega] at this
    simp only [Nat.add_zero, List.getElem?_cons_zero] at h0
    simp only [List.length_cons, Memory.readBytes, h0, hs]

/-- Four big-endian bytes give their value back. -/
theorem ofBigEndian_bigEndian_four (v : Nat) (h : v < 2 ^ 32) : ofBigEndian (bigEndian 4 v) = v := by
  simp [ofBigEndian, bigEndian, byteOf, List.range_succ, Nat.shiftRight_eq_div_pow]
  omega

/-- Two big-endian bytes give their value back. -/
theorem ofBigEndian_hi_lo (v : Half) : 256 * (hiByte v).toNat + (loByte v).toNat = v.toNat := by
  have := v.isLt
  simp [hiByte, loByte, byteOf, Nat.shiftRight_eq_div_pow]
  omega

end Sys2Proof.Machine
end

