-- ==== Sys2Proof/Laws/Packet.lean ====
section
/-! SUPPORT. The laws of packing, of the checksum and of the buffer after an ENCODE. -/

namespace Sys2Proof.Machine

/-! ## The checksum -/

@[simp] theorem crcRegister_nil (c : Word) : crcRegister c [] = c := rfl

theorem crcRegister_cons (c : Word) (b : Byte) (bs : List Byte) :
    crcRegister c (b :: bs) = crcRegister (crcByte c b) bs := rfl

theorem crcRegister_append (c : Word) (bs cs : List Byte) :
    crcRegister c (bs ++ cs) = crcRegister (crcRegister c bs) cs := List.foldl_append

/-! ## Packing -/

@[simp] theorem packBytes_length (s : State) (idx : Half) : (packBytes s idx).length = 1020 := by simp [packBytes]

theorem packBytes_getElem? (s : State) (idx : Half) {off : Nat} (h : off < 1020) :
    (packBytes s idx)[off]? = some (packByte s idx off) := by
  simp [packBytes, h]

theorem packByte_of_ge {s : State} {idx : Half} {off : Nat} (h : 80 ≤ off) : packByte s idx off = 0 := by
  simp only [packByte, if_neg (show ¬ off = 0 by omega), if_neg (show ¬ off = 1 by omega),
    if_neg (show ¬ off = 2 by omega), if_neg (show ¬ off = 3 by omega), if_neg (show ¬ off = 4 by omega),
    if_neg (show ¬ off = 5 by omega), if_neg (show ¬ off = 6 by omega), if_neg (show ¬ off = 7 by omega),
    dif_neg (show ¬ (8 ≤ off ∧ off ≤ 39) by omega), dif_neg (show ¬ (40 ≤ off ∧ off ≤ 47) by omega),
    if_neg (show ¬ off ≤ 71 by omega), if_neg (show ¬ off ≤ 79 by omega)]

/-- From offset 80 on a packet's body is zero (R67). -/
theorem packBytes_eq (s : State) (idx : Half) :
    packBytes s idx = (List.range 80).map (packByte s idx) ++ List.replicate 940 0 := by
  refine List.ext_getElem? fun off => ?_
  have hl : ((List.range 80).map (packByte s idx)).length = 80 := by rw [List.length_map, List.length_range]
  rcases Nat.lt_or_ge off 80 with h | h
  · rw [packBytes_getElem? _ _ (by omega), List.getElem?_append_left (by omega), List.getElem?_map,
      List.getElem?_range h]
    rfl
  · rw [List.getElem?_append_right (by omega), hl, List.getElem?_replicate]
    split
    · rw [packBytes_getElem? _ _ (by omega), packByte_of_ge h]
    · rw [List.getElem?_eq_none (by rw [packBytes_length]; omega)]

/-- Packing reads the packet registers, `TEAM` and the index, and nothing else of the state (R181). -/
theorem packByte_congr {s t : State} (idx : Half) (off : Nat) (hcf : s.cf = t.cf) (hdout : s.dout = t.dout)
    (haout : s.aout = t.aout) (halli : s.alli = t.alli) (hpos : s.pos = t.pos) (haxis : s.axis = t.axis)
    (hbtn : s.btn = t.btn) (hteam : s.team = t.team) : packByte s idx off = packByte t idx off := by
  simp only [packByte, packJoystick, packAnalog, hcf, hdout, haout, halli, hpos, haxis, hbtn, hteam]

/-- Two packets of the same registers differ at offsets 0 and 1 only (R187). -/
theorem packByte_index (s : State) (idx idx' : Half) {off : Nat} (h : 2 ≤ off) :
    packByte s idx off = packByte s idx' off := by
  simp only [packByte, if_neg (show ¬ off = 0 by omega), if_neg (show ¬ off = 1 by omega)]

/-- The six axes of joystick `j` (counted from 0) stand at `8*(j+1)` upwards (R66). -/
theorem packByte_axis (s : State) (idx : Half) (j : Fin 4) (k : Fin 6) :
    packByte s idx (8 * (j + 1) + k) = s.axis[j][k] := by
  have h1 : 8 ≤ 8 * (j.val + 1) + k.val ∧ 8 * (j.val + 1) + k.val ≤ 39 := by omega
  have h2 : (8 * (j.val + 1) + k.val) / 8 - 1 = j.val := by omega
  have h3 : (8 * (j.val + 1) + k.val) % 8 = k.val := by omega
  unfold packByte
  iterate 8 rw [if_neg (by omega)]
  rw [dif_pos h1]
  simp only [packJoystick, h2, h3, k.isLt, dif_pos, Fin.eta, Fin.getElem_fin]

/-- The buttons of joystick `j` (counted from 0), high byte (R66). -/
theorem packByte_buttons_hi (s : State) (idx : Half) (j : Fin 4) :
    packByte s idx (8 * (j + 1) + 6) = hiByte s.btn[j] := by
  have h1 : 8 ≤ 8 * (j.val + 1) + 6 ∧ 8 * (j.val + 1) + 6 ≤ 39 := by omega
  have h2 : (8 * (j.val + 1) + 6) / 8 - 1 = j.val := by omega
  have h3 : (8 * (j.val + 1) + 6) % 8 = 6 := by omega
  unfold packByte
  iterate 8 rw [if_neg (by omega)]
  rw [dif_pos h1]
  simp [packJoystick, h2, h3]

/-- The buttons of joystick `j` (counted from 0), low byte (R66). -/
theorem packByte_buttons_lo (s : State) (idx : Half) (j : Fin 4) :
    packByte s idx (8 * (j + 1) + 7) = loByte s.btn[j] := by
  have h1 : 8 ≤ 8 * (j.val + 1) + 7 ∧ 8 * (j.val + 1) + 7 ≤ 39 := by omega
  have h2 : (8 * (j.val + 1) + 7) / 8 - 1 = j.val := by omega
  have h3 : (8 * (j.val + 1) + 7) % 8 = 7 := by omega
  unfold packByte
  iterate 8 rw [if_neg (by omega)]
  rw [dif_pos h1]
  simp [packJoystick, h2, h3]

/-- Analog output `c` (counted from 0), high byte (R66). -/
theorem packByte_analog_hi (s : State) (idx : Half) (c : Fin 4) :
    packByte s idx (40 + 2 * c) = hiByte s.aout[c] := by
  have h1 : 40 ≤ 40 + 2 * c.val ∧ 40 + 2 * c.val ≤ 47 := by omega
  have h2 : (40 + 2 * c.val - 40) / 2 = c.val := by omega
  have h3 : (40 + 2 * c.val) % 2 = 0 := by omega
  unfold packByte
  iterate 8 rw [if_neg (by omega)]
  rw [dif_neg (by omega), dif_pos h1]
  simp [packAnalog, h3]

/-- Analog output `c` (counted from 0), low byte (R66). -/
theorem packByte_analog_lo (s : State) (idx : Half) (c : Fin 4) :
    packByte s idx (41 + 2 * c) = loByte s.aout[c] := by
  have h1 : 40 ≤ 41 + 2 * c.val ∧ 41 + 2 * c.val ≤ 47 := by omega
  have h2 : (41 + 2 * c.val - 40) / 2 = c.val := by omega
  have h3 : (41 + 2 * c.val) % 2 = 1 := by omega
  unfold packByte
  iterate 8 rw [if_neg (by omega)]
  rw [dif_neg (by omega), dif_pos h1]
  simp [packAnalog, h2, h3]

/-! ## The buffer after an ENCODE -/

/-- Where each byte of the buffer comes from after a packet has been stored. -/
theorem read_storePacket (m : Memory) {body : List Byte} (h : body.length = 1020) (off : Nat) :
    (storePacket m body).read off =
      if off < 1020 then body[off]?
      else if off < 1024 then some (byteOf ((packetChecksum body).toNat >>> (8 * (3 - (off - 1020)))))
      else m.read off := by
  simp only [storePacket, Memory.read_memWrite, Memory.read_writeBytes, h]
  by_cases h1 : off < 1020
  · rw [if_neg (by omega), if_pos (by omega), if_pos h1]; rfl
  · by_cases h2 : off < 1024
    · rw [if_pos (by omega), if_neg h1, if_pos h2]
    · rw [if_neg (by omega), if_neg (by omega), if_neg h1, if_neg h2]

theorem read_encodePacket_body (s : State) {off : Nat} (h : off < 1020) :
    (encodePacket s).buf.read off = some (packByte s s.index off) := by
  rw [encodePacket_buf, read_storePacket _ (packBytes_length _ _), if_pos h, packBytes_getElem? _ _ h]

/-- The first 1020 bytes of a stored packet read back. -/
theorem readBytes_storePacket_body (m : Memory) {body : List Byte} (h : body.length = 1020) :
    (storePacket m body).readBytes 0 1020 = some body := by
  rw [← h]
  refine Memory.readBytes_eq_some fun i hi => ?_
  rw [read_storePacket m h, Nat.zero_add, if_pos (by omega)]

/-- The checksum of a stored packet reads back (R185). -/
theorem memRead_storePacket_checksum (m : Memory) {body : List Byte} (h : body.length = 1020) :
    (storePacket m body).memRead 1020 4 = some (packetChecksum body).toNat := by
  have hr : ∀ i, i < 4 →
      (storePacket m body).read (1020 + i) = (bigEndian 4 (packetChecksum body).toNat)[i]? := by
    intro i hi
    rw [read_storePacket m h, if_neg (by omega), if_pos (by omega), bigEndian_getElem? _ _ _ hi,
      show 3 - (1020 + i - 1020) = 4 - 1 - i by omega]
  have hc := (packetChecksum body).isLt
  generalize (packetChecksum body).toNat = c at hr hc ⊢
  have e := Memory.readBytes_eq_some (m := storePacket m body) (o := 1020) (bs := bigEndian 4 c)
    (by rw [bigEndian_length]; exact hr)
  rw [bigEndian_length] at e
  rw [Memory.memRead, e, Option.map_some, ofBigEndian_bigEndian_four c hc]

/-- Storing a packet keeps the canonical form. -/
theorem wf_storePacket {m : Memory} (h : m.wf) {body : List Byte} (hb : body.length = 1020) :
    (storePacket m body).wf :=
  Memory.wf_memWrite (Memory.wf_writeBytes h (by rw [hb]; decide)) _ (by decide)

end Sys2Proof.Machine
end

