-- ==== Sys2Proof/Laws/Exec.lean ====
section
/-! SUPPORT. What executing a command and taking a step can do, said once. -/

namespace Sys2Proof.Machine

/-- The writes of a command that completes (the pseudocode of R120 to R180, less the response); for an index out of
range, none. -/
def writesOf (i : Instr) (s : State) : State :=
  match i with
  | .init team => freshSession team s
  | .setEstop v => { s with cf := assignMask s.cf s.cfg.estopMask v }
  | .getEstop => s
  | .setEnabled v => { s with cf := assignMask s.cf s.cfg.enabledMask v }
  | .getEnabled => s
  | .setMode m => { s with cf := writeMode s.cfg s.cf m }
  | .getMode => s
  | .setAlliance al => { s with alli := allianceByte al }
  | .setPosition p => { s with pos := positionByte p }
  | .setDout ch v =>
    match indexIn 8 ch with
    | none => s
    | some c => { s with dout := assignMask s.dout (bitMask 8 c) v }
  | .setAout ch v =>
    match indexIn 4 ch with
    | none => s
    | some c => { s with aout := s.aout.set c (analogValue v) }
  | .setAxis j k v =>
    match indexIn 4 j, indexIn 6 k with
    | some jj, some kk => { s with axis := s.axis.set jj (s.axis[jj].set kk (axisValue v)) }
    | _, _ => s
  | .setButton j n v =>
    match indexIn 4 j, indexIn 16 n with
    | some jj, some nn => { s with btn := s.btn.set jj (assignMask s.btn[jj] (bitMask 16 nn) v) }
    | _, _ => s
  | .encode => encodePacket s

/-- The response data of a command that completes (R102). -/
def dataOf (i : Instr) (s : State) : Half :=
  match i with
  | .getEstop => flagData (testMask s.cf s.cfg.estopMask)
  | .getEnabled => flagData (testMask s.cf s.cfg.enabledMask)
  | .getMode => modeData (readModeBits s.cfg s.cf)
  | .encode => s.index
  | _ => 0

/-! No command touches the ports' data or the parameters but by its one response, nor `FATAL`. -/

@[simp] theorem writesOf_inputs (i : Instr) (s : State) : (writesOf i s).inputs = s.inputs := by
  cases i <;> simp only [writesOf, freshSession_inputs, encodePacket_inputs] <;> split <;> rfl

@[simp] theorem writesOf_responses (i : Instr) (s : State) : (writesOf i s).responses = s.responses := by
  cases i <;> simp only [writesOf, freshSession_responses, encodePacket_responses] <;> split <;> rfl

@[simp] theorem writesOf_readData (i : Instr) (s : State) : (writesOf i s).readData = s.readData := by
  cases i <;> simp only [writesOf, freshSession_readData, encodePacket_readData] <;> split <;> rfl

@[simp] theorem writesOf_cfg (i : Instr) (s : State) : (writesOf i s).cfg = s.cfg := by
  cases i <;> simp only [writesOf, freshSession_cfg, encodePacket_cfg] <;> split <;> rfl

@[simp] theorem writesOf_fatal (i : Instr) (s : State) : (writesOf i s).fatal = s.fatal := by
  cases i <;> simp only [writesOf, freshSession_fatal, encodePacket_fatal] <;> split <;> rfl

/-- A session, once created, stays (R32). -/
theorem writesOf_session {i : Instr} {s : State} (h : s.session = true ∨ isInit i = true) :
    (writesOf i s).session = true := by
  cases i with
  | init team => rfl
  | encode => rw [writesOf, encodePacket_session]; simpa [isInit] using h
  | setDout ch v => simp only [writesOf]; split <;> simpa [isInit] using h
  | setAout ch v => simp only [writesOf]; split <;> simpa [isInit] using h
  | setAxis j k v => simp only [writesOf]; split <;> simpa [isInit] using h
  | setButton j n v => simp only [writesOf]; split <;> simpa [isInit] using h
  | _ => simpa [writesOf, isInit] using h

theorem exec_fatal {s : State} (h : s.fatal = true) (i : Instr) :
    exec i s = .next (s.respond .invariantViolation 0) := by
  cases i <;> exact unlessFatal_fatal h _

theorem exec_noSession {s : State} (h : s.fatal = false) (h' : s.session = false) {i : Instr} (hi : isInit i = false) :
    exec i s = .next (s.respond .noSession 0) := by
  cases i with
  | init team => cases hi
  | _ => exact inSession_noSession h h' _

theorem exec_init {s : State} (h : s.fatal = false) (team : Half) :
    exec (.init team) s = .next ((freshSession team s).respond .ok 0) := unlessFatal_of_not_fatal h _

/-- A 16-bit index never meets the test of R180 (R188). -/
theorem index_lt (s : State) : ¬ 65536 ≤ s.index.toNat := Nat.not_le.2 s.index.isLt

/-- In a session, a command whose indices are in range completes. -/
theorem exec_live {s : State} (h : s.fatal = false) (h' : s.session = true) {i : Instr}
    (hi : indicesInRange i = true) : exec i s = .next ((writesOf i s).respond .ok (dataOf i s)) := by
  cases i with
  | init team => exact exec_init h team
  | setDout ch v =>
    rw [indicesInRange, decide_eq_true_eq] at hi
    simp only [exec, execSetDout, inSession_live h h', writesOf, dataOf, indexIn_eq_some hi.1 hi.2, complete_eq]
  | setAout ch v =>
    rw [indicesInRange, decide_eq_true_eq] at hi
    simp only [exec, execSetAout, inSession_live h h', writesOf, dataOf, indexIn_eq_some hi.1 hi.2, complete_eq]
  | setAxis j k v =>
    rw [indicesInRange, decide_eq_true_eq] at hi
    simp only [exec, execSetAxis, inSession_live h h', writesOf, dataOf, indexIn_eq_some hi.1 hi.2.1,
      indexIn_eq_some hi.2.2.1 hi.2.2.2, complete_eq]
  | setButton j n v =>
    rw [indicesInRange, decide_eq_true_eq] at hi
    simp only [exec, execSetButton, inSession_live h h', writesOf, dataOf, indexIn_eq_some hi.1 hi.2.1,
      indexIn_eq_some hi.2.2.1 hi.2.2.2, complete_eq]
  | encode => simp only [exec, execEncode, inSession_live h h', if_neg (index_lt s), complete_eq, writesOf, dataOf]
  | _ => exact inSession_live h h' _

/-- In a session, a command with an index out of range is rejected. -/
theorem exec_outOfRange {s : State} (h : s.fatal = false) (h' : s.session = true) {i : Instr}
    (hi : indicesInRange i = false) : exec i s = .next (s.respond .outOfRange 0) := by
  cases i with
  | setDout ch v =>
    rw [indicesInRange, decide_eq_false_iff_not] at hi
    simp only [exec, execSetDout, inSession_live h h', indexIn_eq_none (n := 8) (i := ch) (by omega), raise_eq]
  | setAout ch v =>
    rw [indicesInRange, decide_eq_false_iff_not] at hi
    simp only [exec, execSetAout, inSession_live h h', indexIn_eq_none (n := 4) (i := ch) (by omega), raise_eq]
  | setAxis j k v =>
    rw [indicesInRange, decide_eq_false_iff_not] at hi
    simp only [exec, execSetAxis, inSession_live h h']
    rcases indexIn_cases 4 j with ⟨e, -⟩ | ⟨c, e, rfl⟩
    · simp only [e, raise_eq]
    · rw [e, indexIn_eq_none (n := 6) (i := k) (by omega)]; rfl
  | setButton j n v =>
    rw [indicesInRange, decide_eq_false_iff_not] at hi
    simp only [exec, execSetButton, inSession_live h h']
    rcases indexIn_cases 4 j with ⟨e, -⟩ | ⟨c, e, rfl⟩
    · simp only [e, raise_eq]
    · rw [e, indexIn_eq_none (n := 16) (i := n) (by omega)]; rfl
  | _ => cases hi

theorem eq_init_of_isInit {i : Instr} (h : isInit i = true) : ∃ team, i = .init team := by
  cases i with
  | init team => exact ⟨team, rfl⟩
  | _ => cases h

/-- Everything executing a command can do: it is answered with a fault and nothing else changes, or it completes. -/
theorem exec_cases {i : Instr} {s t : State} (h : exec i s = .next t) :
    (∃ st, st ≠ Status.ok ∧ t = s.respond st 0) ∨
    (s.fatal = false ∧ (s.session = true ∨ isInit i = true) ∧ indicesInRange i = true ∧
      t = (writesOf i s).respond .ok (dataOf i s)) := by
  cases hf : s.fatal
  · cases hi : isInit i
    · cases hs : s.session
      · rw [exec_noSession hf hs hi] at h
        injection h with h
        exact .inl ⟨.noSession, by decide, h.symm⟩
      · cases hr : indicesInRange i
        · rw [exec_outOfRange hf hs hr] at h
          injection h with h
          exact .inl ⟨.outOfRange, by decide, h.symm⟩
        · rw [exec_live hf hs hr] at h
          injection h with h
          exact .inr ⟨rfl, .inl rfl, rfl, h.symm⟩
    · obtain ⟨team, rfl⟩ := eq_init_of_isInit hi
      rw [exec_init hf] at h
      injection h with h
      exact .inr ⟨rfl, .inr rfl, rfl, h.symm⟩
  · rw [exec_fatal hf] at h
    injection h with h
    exact .inl ⟨.invariantViolation, by decide, h.symm⟩

/-- A step whose next input is a command word accepts it. -/
theorem step_command {s : State} {w : Word} {rest : List Input} (h : s.inputs = .command w :: rest) :
    step s = acceptCommand w { s with inputs := rest } := by
  unfold step
  rw [h]
  rfl

/-- A step whose next input is a read performs it. -/
theorem step_readByte {s : State} {off : BitVec 10} {rest : List Input} (h : s.inputs = .readByte off :: rest) :
    step s = transportRead off { s with inputs := rest } := by
  unfold step
  rw [h]
  rfl

theorem acceptCommand_ok {w : Word} {i : Instr} (h : decode w = .ok i) (s : State) :
    acceptCommand w s = exec i s := by
  rw [acceptCommand, h]

theorem acceptCommand_error {w : Word} {e : DecodeError} (h : decode w = .error e) (s : State) :
    acceptCommand w s = .next (s.respond (if s.fatal then .invariantViolation else .illegalCommand) 0) := by
  rw [acceptCommand, h, ← rejectIllegal_eq]

/-- Everything a step can do when it answers a next state. -/
theorem step_cases {s t : State} (h : step s = .next t) :
    (s.inputs = [] ∧ t = s) ∨
    (∃ w rest i, s.inputs = .command w :: rest ∧ decode w = .ok i ∧ exec i { s with inputs := rest } = .next t) ∨
    (∃ w rest e st, s.inputs = .command w :: rest ∧ decode w = .error e ∧ st ≠ Status.ok ∧
      t = { s with inputs := rest, responses := s.responses ++ [responseWord st 0] }) ∨
    (∃ off rest b, s.inputs = .readByte off :: rest ∧ s.bufValid = true ∧ s.buf.read off.toNat = some b ∧
      t = { s with inputs := rest, readData := s.readData ++ [b] }) := by
  unfold step at h
  split at h
  · next e => injection h with h; exact .inl ⟨e, h.symm⟩
  · next x rest e =>
    cases x with
    | command w =>
      simp only [acceptInput, acceptCommand] at h
      split at h
      · next i hd => exact .inr (.inl ⟨w, rest, i, e, hd, h⟩)
      · next er hd =>
        rw [rejectIllegal_eq] at h
        injection h with h
        exact .inr (.inr (.inl ⟨w, rest, er, _, e, hd, by split <;> decide, h.symm⟩))
    | readByte off =>
      simp only [acceptInput, transportRead] at h
      split at h
      · next hv =>
        split at h
        · next b hb => injection h with h; exact .inr (.inr (.inr ⟨off, rest, b, e, hv, hb, h.symm⟩))
        · cases h
      · cases h

end Sys2Proof.Machine
end

