-- ==== Sys2Proof/Laws/PerInstr.lean ====
section
/-! SUPPORT. The statements made per command: `Opcode`, the opcode nibble of a command's word is the one row R97 gives
the command, whatever its operands. -/

/-- R90, R97: bits 31..28 of the command's word are its opcode. -/
def Sys2Proof.Laws.Opcode.Statement (i : Sys2Proof.Instr) : Prop :=
  Sys2Proof.opField (Sys2Proof.encodeInstr i) = i.opcode

namespace Sys2Proof.Laws.Opcode

open Sys2Proof

theorem init (team : Half) : Statement (.init team) := opField_packWord ..
theorem setEstop (v : Bool) : Statement (.setEstop v) := opField_packWord ..
theorem getEstop : Statement .getEstop := opField_packWord ..
theorem setEnabled (v : Bool) : Statement (.setEnabled v) := opField_packWord ..
theorem getEnabled : Statement .getEnabled := opField_packWord ..
theorem setMode (m : Mode) : Statement (.setMode m) := opField_packWord ..
theorem getMode : Statement .getMode := opField_packWord ..
theorem setAlliance (al : Alliance) : Statement (.setAlliance al) := opField_packWord ..
theorem setPosition (p : Int) : Statement (.setPosition p) := opField_packWord ..
theorem setDout (ch : Nat) (v : Bool) : Statement (.setDout ch v) := opField_packWord ..
theorem setAout (ch : Nat) (v : Int) : Statement (.setAout ch v) := opField_packWord ..
theorem setAxis (j k : Nat) (v : Int) : Statement (.setAxis j k v) := opField_packWord ..
theorem setButton (j n : Nat) (v : Bool) : Statement (.setButton j n v) := opField_packWord ..
theorem encode : Statement .encode := opField_packWord ..

end Sys2Proof.Laws.Opcode
end

