-- ==== Sys2Proof/Laws/Serial.lean ====
section
/-! SUPPORT. The beats of the byte-serial encoder (45_encode.md R189): what its hidden state is after any number of
beats. -/

namespace Sys2Proof.Machine

theorem serialBeats_succ (n : Nat) (e : SerialEncoder) :
    serialBeats (n + 1) e = serialBeat (serialBeats n e) := by
  induction n generalizing e with
  | zero => rfl
  | succ n ih => rw [serialBeats, ih, serialBeats]

/-- What the hidden state holds after the beats of the offsets below `n`, followed by `k` beats of zero bytes. -/
structure SerialEncoder.After (s : State) (n k : Nat) (e : SerialEncoder) : Prop where
  snap : e.snap = s
  cur : e.cur = n + k
  acc : e.acc = crcRegister crcInit ((List.range n).map (packByte s s.index) ++ List.replicate k 0)
  read : ∀ o, e.buf.read o = if o < n then some (packByte s s.index o) else s.buf.read o
  wf : s.buf.wf → e.buf.wf

theorem serialStart_after (s : State) : (serialStart s).After s 0 0 :=
  ⟨rfl, rfl, rfl, fun _ => rfl, id⟩

theorem SerialEncoder.After.body {s : State} {n : Nat} {e : SerialEncoder} (h : e.After s n 0) (hn : n < 1020) :
    (serialBeat e).After s (n + 1) 0 := by
  obtain ⟨h1, h2, h3, h4, h5⟩ := h
  rw [Nat.add_zero] at h2
  simp only [serialBeat, h1, h2, if_pos hn]
  refine ⟨rfl, rfl, ?_, fun o => ?_, fun h => Memory.wf_write (h5 h) (Nat.lt_trans hn (by decide)) _⟩
  · rw [h3, List.range_succ, List.map_append]
    simp only [List.replicate_zero, List.append_nil, crcRegister_append]
    rfl
  · rw [Memory.read_write, h4]
    split_ifs <;> first | rfl | omega | (congr 2; omega)

theorem SerialEncoder.After.tail {s : State} {n k : Nat} {e : SerialEncoder} (h : e.After s n k) (hn : 1020 ≤ n) :
    (serialBeat e).After s n (k + 1) := by
  obtain ⟨h1, h2, h3, h4, h5⟩ := h
  have hc : ¬ n + k < 1020 := by omega
  simp only [serialBeat, h2, if_neg hc]
  refine ⟨h1, rfl, ?_, h4, h5⟩
  rw [List.replicate_succ', ← List.append_assoc, crcRegister_append _ _ [0], ← h3]
  rfl

theorem serialBeats_body (s : State) {n : Nat} (hn : n ≤ 1020) : (serialBeats n (serialStart s)).After s n 0 := by
  induction n with
  | zero => exact serialStart_after s
  | succ n ih =>
    rw [serialBeats_succ]
    exact (ih (Nat.le_of_succ_le hn)).body hn

/-- Everything the 1024 beats of one packet do. -/
theorem serialBeats_all (s : State) : (serialBeats bufBytes (serialStart s)).After s 1020 4 := by
  obtain ⟨N, hN⟩ : ∃ N, N = 1020 := ⟨_, rfl⟩
  have h : bufBytes = N + 1 + 1 + 1 + 1 := by rw [hN]; rfl
  rw [h, ← hN]
  simp only [serialBeats_succ]
  have hb := serialBeats_body s (Nat.le_of_eq hN)
  exact (((hb.tail (by omega)).tail (by omega)).tail (by omega)).tail (by omega)

end Sys2Proof.Machine
end

