-- ==== Sys2Proof/Tests/Slice0.lean ====
section
/-! SUPPORT. Tests of one step each, on small states. Expected results are those of spec 95_test_vectors.md (V1 to V28,
S1 to S9) and of the examples in the rules, or the fields of a word written out from 30_encoding.md R97; the last part
holds one witness for each statement with hypotheses. -/

namespace Sys2Proof.Tests

open Sys2Proof Sys2Proof.Machine

/-- The template state of a session with team 0, default parameters (10_state.md R43, `Template` of file 95). -/
def live : State := { State.reset with alli := 82, pos := 48, session := true }

/-- The fatal state of V28f. -/
def fatal : State := { live with fatal := true }

/-- One step on one command word: the state after it. -/
def after (w : Word) (s : State) : Option State :=
  match step { s with inputs := [.command w] } with
  | .next t => some t
  | _ => none

/-- What the step answered and left in one part of the state. -/
def leaves {α : Type} (w : Word) (s : State) (part : State → α) : Option (List Word × α) :=
  (after w s).map fun t => (t.responses, part t)

/-! ## Well-formedness: a term of every check, and one the check refuses -/

theorem test_fitsA : fitsA 15 = true ∧ fitsA 16 = false := by decide

theorem test_fitsB : fitsB 255 = true ∧ fitsB 256 = false := by decide

theorem test_fitsInt : fitsInt (-32768) = true ∧ fitsInt 32767 = true ∧ fitsInt (-32769) = false ∧
    fitsInt 32768 = false := by decide

theorem test_ill_formed_commands : (Instr.setPosition 32768).wellFormed = false ∧
    (Instr.setDout 256 true).wellFormed = false ∧ (Instr.setAout 256 0).wellFormed = false ∧
    (Instr.setAout 1 (-32769)).wellFormed = false ∧ (Instr.setAxis 16 1 0).wellFormed = false ∧
    (Instr.setAxis 1 256 0).wellFormed = false ∧ (Instr.setAxis 1 1 32768).wellFormed = false ∧
    (Instr.setButton 16 1 true).wellFormed = false ∧ (Instr.setButton 1 256 true).wellFormed = false := by decide

theorem test_masksOk : Config.defaults.masksOk = true ∧ { Config.defaults with testMask := 0x04 }.masksOk = false ∧
    { Config.defaults with estopMask := 0x03 }.masksOk = false ∧
    { Config.defaults with enabledMask := 0x00 }.masksOk = false := by decide

theorem test_allianceOk : Config.defaults.allianceOk = true ∧
    { Config.defaults with resetAlliance := 0 }.allianceOk = false := by decide

theorem test_positionOk : Config.defaults.positionOk = true ∧
    { Config.defaults with resetPosition := 51 }.positionOk = false := by decide

/-! ## Decoding: words written out digit by digit, `O A BB IIII` (R90, R97) -/

theorem test_decode_session : decode 0x1000045A#32 = .ok (.init 1114) ∧ decode 0x1000FFFF#32 = .ok (.init 65535) := by
  decide

theorem test_decode_control : decode 0x20000001#32 = .ok (.setEstop true) ∧ decode 0x20000000#32 = .ok (.setEstop false) ∧
    decode 0x30000000#32 = .ok .getEstop ∧ decode 0x40000001#32 = .ok (.setEnabled true) ∧
    decode 0x50000000#32 = .ok .getEnabled ∧ decode 0x60000000#32 = .ok (.setMode .teleop) ∧
    decode 0x60000001#32 = .ok (.setMode .autonomous) ∧ decode 0x60000002#32 = .ok (.setMode .test) ∧
    decode 0x70000000#32 = .ok .getMode := by decide

theorem test_decode_station : decode 0x80000000#32 = .ok (.setAlliance .red) ∧
    decode 0x80000001#32 = .ok (.setAlliance .blue) ∧ decode 0x90000002#32 = .ok (.setPosition 2) ∧
    decode 0x90008000#32 = .ok (.setPosition (-32768)) := by decide

theorem test_decode_outputs : decode 0xA0FF0000#32 = .ok (.setDout 255 false) ∧
    decode 0xA0030001#32 = .ok (.setDout 3 true) ∧ decode 0xB00107D0#32 = .ok (.setAout 1 2000) ∧
    decode 0xB004FFFB#32 = .ok (.setAout 4 (-5)) := by decide

theorem test_decode_joysticks : decode 0xC102FFFB#32 = .ok (.setAxis 1 2 (-5)) ∧
    decode 0xC406012C#32 = .ok (.setAxis 4 6 300) ∧ decode 0xD2100001#32 = .ok (.setButton 2 16 true) ∧
    decode 0xD4080000#32 = .ok (.setButton 4 8 false) := by decide

theorem test_decode_encode : decode 0xE0000000#32 = .ok .encode := by decide

theorem test_decode_reserved : decode 0x00000000#32 = .error .reservedOpcode ∧
    decode 0xFFFFFFFF#32 = .error .reservedOpcode := by decide

theorem test_decode_unused : decode 0x1100045A#32 = .error .unusedFieldNotZero ∧
    decode 0x90010002#32 = .error .unusedFieldNotZero ∧ decode 0xA1010001#32 = .error .unusedFieldNotZero := by decide

theorem test_decode_kind : decode 0x20000002#32 = .error .immediateNotInKind ∧
    decode 0x30000001#32 = .error .immediateNotInKind ∧ decode 0x60000003#32 = .error .immediateNotInKind ∧
    decode 0x80000052#32 = .error .immediateNotInKind ∧ decode 0xD5110002#32 = .error .immediateNotInKind ∧
    decode 0xE0000001#32 = .error .immediateNotInKind := by decide

/-- The encoder's words, the same table read the other way. -/
theorem test_encode_words : encodeInstr (.init 1114) = 0x1000045A#32 ∧ encodeInstr (.setAxis 1 2 (-5)) = 0xC102FFFB#32 ∧
    encodeInstr (.setButton 2 16 true) = 0xD2100001#32 ∧ encodeInstr (.setAout 4 (-5)) = 0xB004FFFB#32 := by decide

theorem test_tableWord : decodeTableWord 32 0xE0000000 = some .encode ∧ decodeTableWord 32 0xF0000000 = none := by decide

theorem test_assemble : assemble "set_button" [.int 1, .int 1, .int 1] = some 0xD1010001#32 ∧
    assemble "set_estop" [.int 2] = none ∧ assemble "set_mode" [.name "red"] = none ∧
    assemble "set_position" [.int 32768] = none ∧ assemble "jump" [] = none := by decide

/-! ## One step of each command (file 95, part 2) -/

/-- V1. -/
theorem test_init : after 0x1000045A#32 State.reset =
    some { State.reset with alli := 82, pos := 48, team := 1114, session := true, responses := [0x00000000#32] } := by
  decide

/-- V3: INIT in a session puts every register back. -/
theorem test_init_again :
    after 0x10000000#32 { live with team := 1114, index := 5, cf := 0x23, btn := #v[1, 0, 0, 0], bufValid := true } =
      some { live with responses := [0x00000000#32] } := by decide

/-- V4, V5, V5b. -/
theorem test_setEstop : leaves 0x20000001#32 { live with cf := 0x02 } State.cf = some ([0#32], 0x03) ∧
    leaves 0x20000000#32 { live with cf := 0x03 } State.cf = some ([0#32], 0x02) ∧
    leaves 0x20000000#32 { live with cf := 0x02 } State.cf = some ([0#32], 0x02) := by decide

/-- V6, V6b. -/
theorem test_getEstop : leaves 0x30000000#32 { live with cf := 0x03 } State.cf = some ([1#32], 0x03) ∧
    leaves 0x30000000#32 { live with cf := 0x26 } State.cf = some ([0#32], 0x26) := by decide

/-- V7, V7b. -/
theorem test_setEnabled : leaves 0x40000001#32 { live with cf := 0x00 } State.cf = some ([0#32], 0x02) ∧
    leaves 0x40000000#32 { live with cf := 0x23 } State.cf = some ([0#32], 0x21) := by decide

/-- V7c: the masked value is 2, not 1. -/
theorem test_getEnabled : leaves 0x50000000#32 { live with cf := 0x02 } State.cf = some ([1#32], 0x02) := by decide

/-- V8, V9, V9b. -/
theorem test_setMode : leaves 0x60000002#32 { live with cf := 0x07 } State.cf = some ([0#32], 0x23) ∧
    leaves 0x60000000#32 { live with cf := 0x23 } State.cf = some ([0#32], 0x03) ∧
    leaves 0x60000001#32 { live with cf := 0x03 } State.cf = some ([0#32], 0x07) := by decide

/-- V10. -/
theorem test_getMode : leaves 0x70000000#32 { live with cf := 0x00 } State.cf = some ([0#32], 0x00) ∧
    leaves 0x70000000#32 { live with cf := 0x04 } State.cf = some ([1#32], 0x04) ∧
    leaves 0x70000000#32 { live with cf := 0x20 } State.cf = some ([2#32], 0x20) ∧
    leaves 0x70000000#32 { live with cf := 0x27 } State.cf = some ([1#32], 0x27) := by decide

/-- V12, V12b, V12c. -/
theorem test_setAlliance : leaves 0x80000001#32 live State.alli = some ([0#32], 66) ∧
    leaves 0x80000000#32 { live with alli := 66 } State.alli = some ([0#32], 82) ∧
    leaves 0x80000052#32 live State.alli = some ([0x30000000#32], 82) := by decide

/-- V13, V13b, V13c. -/
theorem test_setPosition : leaves 0x90000002#32 live State.pos = some ([0#32], 49) ∧
    leaves 0x90000003#32 { live with pos := 49 } State.pos = some ([0#32], 50) ∧
    leaves 0x90000001#32 { live with pos := 50 } State.pos = some ([0#32], 48) := by decide

/-- V13d to V13h: the fallback. -/
theorem test_setPosition_fallback : leaves 0x90000007#32 { live with pos := 50 } State.pos = some ([0#32], 48) ∧
    leaves 0x90000000#32 { live with pos := 50 } State.pos = some ([0#32], 48) ∧
    leaves 0x9000FFFF#32 { live with pos := 50 } State.pos = some ([0#32], 48) ∧
    leaves 0x90000004#32 { live with pos := 50 } State.pos = some ([0#32], 48) ∧
    leaves 0x90000031#32 { live with pos := 50 } State.pos = some ([0#32], 48) := by decide

/-- V14b, V14c, V14d. -/
theorem test_setDout : leaves 0xA0010001#32 { live with dout := 0x04 } State.dout = some ([0#32], 0x05) ∧
    leaves 0xA0080001#32 { live with dout := 0x05 } State.dout = some ([0#32], 0x85) ∧
    leaves 0xA0030000#32 { live with dout := 0x85 } State.dout = some ([0#32], 0x81) := by decide

/-- V15, V15b, V15d. -/
theorem test_setDout_rejected :
    leaves 0xA0090001#32 { live with dout := 0x81 } State.dout = some ([0x10000000#32], 0x81) ∧
    leaves 0xA0000001#32 { live with dout := 0x81 } State.dout = some ([0x10000000#32], 0x81) ∧
    leaves 0xA1010001#32 { live with dout := 0x81 } State.dout = some ([0x30000000#32], 0x81) := by decide

/-- V16, V16b, V16c. -/
theorem test_setAout : leaves 0xB0020200#32 live State.aout = some ([0#32], #v[0, 512, 0, 0]) ∧
    leaves 0xB00107D0#32 live State.aout = some ([0#32], #v[1023, 0, 0, 0]) ∧
    leaves 0xB004FFFB#32 { live with aout := #v[0, 0, 0, 7] } State.aout = some ([0#32], #v[0, 0, 0, 0]) := by decide

/-- V16d, V16e, V16i, V16j. -/
theorem test_setAout_bounds : leaves 0xB00303FF#32 live State.aout = some ([0#32], #v[0, 0, 1023, 0]) ∧
    leaves 0xB0030400#32 live State.aout = some ([0#32], #v[0, 0, 1023, 0]) ∧
    leaves 0xB0050001#32 live State.aout = some ([0x10000000#32], #v[0, 0, 0, 0]) ∧
    leaves 0xB00007D0#32 live State.aout = some ([0x10000000#32], #v[0, 0, 0, 0]) := by decide

/-- V17, V17c, V17d, V17f, V17g: saturated, not truncated. -/
theorem test_setAxis : leaves 0xC102FFFB#32 live (fun s => s.axis[0][1]) = some ([0#32], 0xFB) ∧
    leaves 0xC1010080#32 live (fun s => s.axis[0][0]) = some ([0#32], 0x7F) ∧
    leaves 0xC203012C#32 live (fun s => s.axis[1][2]) = some ([0#32], 0x7F) ∧
    leaves 0xC304FF7F#32 live (fun s => s.axis[2][3]) = some ([0#32], 0x80) ∧
    leaves 0xC30400C8#32 live (fun s => s.axis[2][3]) = some ([0#32], 0x7F) := by decide

/-- V18 to V18d. -/
theorem test_setAxis_rejected : after 0xC5010001#32 live = some (live.answered 0x10000000#32) ∧
    after 0xC0010001#32 live = some (live.answered 0x10000000#32) ∧
    after 0xC4070001#32 live = some (live.answered 0x10000000#32) ∧
    after 0xC4000001#32 live = some (live.answered 0x10000000#32) := by decide

/-- V19, V19b, V19c, V19d. -/
theorem test_setButton : leaves 0xD1010001#32 live State.btn = some ([0#32], #v[0x0001, 0, 0, 0]) ∧
    leaves 0xD2090001#32 live State.btn = some ([0#32], #v[0, 0x0100, 0, 0]) ∧
    leaves 0xD2100001#32 { live with btn := #v[0, 0x0100, 0, 0] } State.btn = some ([0#32], #v[0, 0x8100, 0, 0]) ∧
    leaves 0xD4080000#32 { live with btn := #v[0, 0, 0, 0x0080] } State.btn = some ([0#32], #v[0, 0, 0, 0]) := by decide

/-- V20, V20b, V20c, V20e. -/
theorem test_setButton_rejected : after 0xD3110001#32 live = some (live.answered 0x10000000#32) ∧
    after 0xD3000001#32 live = some (live.answered 0x10000000#32) ∧
    after 0xD5010001#32 live = some (live.answered 0x10000000#32) ∧
    after 0xD5110002#32 live = some (live.answered 0x30000000#32) := by decide

/-- V21: the first packet of team 1114. -/
theorem test_encode : leaves 0xE0000000#32 { live with team := 1114 } (fun t => (t.index, t.bufValid)) =
    some ([0#32], 1, true) := by decide

theorem test_encode_first_bytes : (List.range 16).map (packByte { live with team := 1114, btn := #v[1, 0, 0, 0] } 0) =
    [0x00, 0x00, 0x00, 0x00, 0x04, 0x5A, 0x52, 0x30, 0x00, 0x00, 0x00, 0x00, 0x00, 0x00, 0x00, 0x01] := by decide

/-- P4, second packet: the index wraps. -/
theorem test_encode_wraps : leaves 0xE0000000#32 { live with index := 65535 } State.index =
    some ([0x0000FFFF#32], 0) := by decide

/-- The checksum of V21, with its 944 zero bytes at the end in pieces of 59. -/
theorem test_encode_prefix : crcRegister crcInit ((List.range 40).map (packByte { live with team := 1114 } 0)) = 1081057023#32 ∧
    crcRegister 1081057023#32 ((List.range 40).map fun i => packByte { live with team := 1114 } 0 (40 + i)) = 962364135#32 := by
  decide +kernel

theorem zeros_succ (c : Word) (k : Nat) : crcRegister c (List.replicate (59 * (k + 1)) 0) =
    crcRegister (crcRegister c (List.replicate 59 0)) (List.replicate (59 * k) 0) := by
  rw [Nat.mul_succ, Nat.add_comm, List.replicate_add, crcRegister_append]

/-- The 944 zero bytes at the end of the checksum's input, 59 at a time (each value is only a stage of the computation). -/
theorem test_zero_bytes :
    crcRegister 962364135#32 (List.replicate 59 0) = 3302445149#32 ∧
    crcRegister 3302445149#32 (List.replicate 59 0) = 998098931#32 ∧
    crcRegister 998098931#32 (List.replicate 59 0) = 2757441346#32 ∧
    crcRegister 2757441346#32 (List.replicate 59 0) = 2951984298#32 ∧
    crcRegister 2951984298#32 (List.replicate 59 0) = 3389134872#32 ∧
    crcRegister 3389134872#32 (List.replicate 59 0) = 1834799392#32 ∧
    crcRegister 1834799392#32 (List.replicate 59 0) = 2458753605#32 ∧
    crcRegister 2458753605#32 (List.replicate 59 0) = 1070612177#32 ∧
    crcRegister 1070612177#32 (List.replicate 59 0) = 1493704946#32 ∧
    crcRegister 1493704946#32 (List.replicate 59 0) = 628088438#32 ∧
    crcRegister 628088438#32 (List.replicate 59 0) = 3200842515#32 ∧
    crcRegister 3200842515#32 (List.replicate 59 0) = 3797269990#32 ∧
    crcRegister 3797269990#32 (List.replicate 59 0) = 749067117#32 ∧
    crcRegister 749067117#32 (List.replicate 59 0) = 453810120#32 ∧
    crcRegister 453810120#32 (List.replicate 59 0) = 2254553291#32 ∧
    crcRegister 2254553291#32 (List.replicate 59 0) = 2001424470#32 := by
  refine ⟨?_, ?_, ?_, ?_, ?_, ?_, ?_, ?_, ?_, ?_, ?_, ?_, ?_, ?_, ?_, ?_⟩ <;> decide +kernel

/-- V21, V26: the stored checksum. -/
theorem test_encode_checksum : packetChecksum (packBytes { live with team := 1114 } 0) = 0x88B4AFA9#32 := by
  have h : List.replicate 940 (0 : Byte) ++ List.replicate 4 0 = List.replicate (59 * 16) 0 := by
    rw [← List.replicate_add]
  have h' : List.range 80 = List.range 40 ++ (List.range 40).map (40 + ·) := by decide
  have hp := test_encode_prefix
  rw [packetChecksum, crc32, packBytes_eq, List.append_assoc, h, crcRegister_append, h', List.map_append,
    crcRegister_append, List.map_map, hp.1]
  have e : crcRegister 1081057023#32 ((List.range 40).map (packByte { live with team := 1114 } 0 ∘ (40 + ·))) =
    962364135#32 := hp.2
  rw [e]
  simp only [zeros_succ, test_zero_bytes]
  decide

/-- V25. -/
theorem test_crc : crc32 [0x31, 0x32, 0x33, 0x34, 0x35, 0x36, 0x37, 0x38, 0x39] = 0xCBF43926#32 ∧
    crc32 [0x01] = 0xA505DF1B#32 ∧ crc32 [] = 0x00000000#32 := by decide +kernel

/-- V25, the bit-step trace of the byte 01: the first, second and eighth shift. -/
theorem test_crc_trace : crcShift 1 0xFFFFFFFE#32 = 0x7FFFFFFF#32 ∧ crcShift 2 0xFFFFFFFE#32 = 0xD2477CDF#32 ∧
    crcShift 8 0xFFFFFFFE#32 = 0x5AFA20E4#32 := by decide

/-! ## Faults and their priority -/

/-- V28 to V28f. -/
theorem test_priority : after 0x00000000#32 State.reset = some (State.reset.answered 0x30000000#32) ∧
    after 0xA0090002#32 State.reset = some (State.reset.answered 0x30000000#32) ∧
    after 0xA0090001#32 State.reset = some (State.reset.answered 0x40000000#32) ∧
    after 0xA0090001#32 live = some (live.answered 0x10000000#32) ∧
    after 0xFFFFFFFF#32 live = some (live.answered 0x30000000#32) ∧
    after 0x10000000#32 fatal = some (fatal.answered 0x20000000#32) := by decide

/-- V27. -/
theorem test_encode_faults : after 0xE0000000#32 State.reset = some (State.reset.answered 0x40000000#32) ∧
    after 0xE0000001#32 live = some (live.answered 0x30000000#32) := by decide

/-! ## The buffer, the transport and the fetch -/

theorem test_write_keeps_order : Memory.write (Memory.write [] 7 1) 3 2 = [(3, 2), (7, 1)] := by decide

/-- R11: big-endian. -/
theorem test_memWrite : Memory.memWrite [] 1020 4 0x88B4AFA9 =
    [(1020, 0x88), (1021, 0xB4), (1022, 0xAF), (1023, 0xA9)] ∧
    Memory.memRead [(4, 0x04), (5, 0x5A)] 4 2 = some 1114 := by decide

/-- R65, R244. -/
theorem test_transport : step { live with buf := [(5, 0x5A)], bufValid := true, inputs := [.readByte 5] } =
    .next { live with buf := [(5, 0x5A)], bufValid := true, readData := [0x5A] } ∧
    step { live with inputs := [.readByte 5] } = .refused .bufferNotValid ∧
    step { live with bufValid := true, inputs := [.readByte 5] } = .fault (.unwrittenByte 5) := ⟨rfl, rfl, rfl⟩

/-- The block is idle with nothing waiting (R224). -/
theorem test_idle : step State.reset = .next State.reset := rfl

/-- The word placed by `withFetchWord` is the next command executed. -/
theorem test_withFetchWord : step (State.reset.withFetchWord 32 0x1000045A) =
    .next { live with team := 1114, responses := [0x00000000#32] } := rfl

/-- R189: a beat of the serial encoder. -/
theorem test_serialBeat : (serialBeat (serialStart { live with team := 1114, cf := 0x21 })).cur = 1 ∧
    (serialBeats 3 (serialStart { live with cf := 0x21 })).buf = [(0, 0), (1, 0), (2, 0x21)] := by decide +kernel

/-! ## Witnesses: for each statement with hypotheses, a state and operands that meet them -/

/-- A session in which a packet has been encoded. -/
def encoded : State := encodePacket live

/-- The state in which the word `w` is the issuer's next move. -/
def sends (w : Word) (s : State) : State := { s with inputs := [.command w] }

theorem test_witness_DecodeOfEncodedCommand : (Instr.setAxis 15 255 (-32768)).wellFormed = true ∧
    (Instr.setButton 0 0 false).wellFormed = true ∧ (Instr.setPosition 32767).wellFormed = true := by decide

theorem test_witness_EncodeOfDecodedWord : decode 0xCFFF8000#32 = .ok (.setAxis 15 255 (-32768)) := by decide

theorem test_witness_DecoderAcceptsExactlyTheLegalWords : legalWord 0xCFFF8000#32 = true ∧
    opField 0x0FFFFFFF#32 = 0x0 ∧ opField 0xF0000000#32 = 0xF := by decide

theorem test_witness_StepRunsTheDecodedCommand : (sends 0xE0000000#32 live).inputs = .command 0xE0000000#32 :: [] ∧
    decode 0xE0000000#32 = .ok .encode ∧
    (sends (encodeInstr .encode) live).inputs = .command (encodeInstr .encode) :: [] ∧
    Instr.encode.wellFormed = true := by decide

theorem test_witness_DecodeOrderDecidesTheResponse :
    (sends 0x00000000#32 fatal).inputs = .command 0x00000000#32 :: [] ∧ expectedStatus fatal 0x00000000#32 = 2 ∧
    expectedStatus State.reset 0xA0090002#32 = 3 ∧ expectedStatus State.reset 0xA0090001#32 = 4 ∧
    expectedStatus live 0xA0090001#32 = 1 ∧ expectedStatus live 0xA0080001#32 = 0 ∧
    expectedStatus State.reset 0x10000000#32 = 0 := by decide

theorem test_witness_OneResponsePerCommand : (sends 0x00000000#32 fatal).inputs = .command 0x00000000#32 :: [] := by
  decide

theorem test_witness_IllegalWordsAreRejected : legalWord 0xE0000001#32 = false ∧
    (sends 0xE0000001#32 live).inputs = .command 0xE0000001#32 :: [] ∧
    (sends 0xE0000001#32 fatal).inputs = .command 0xE0000001#32 :: [] := by decide

theorem test_witness_FatalStateRefusesEveryWord : fatal.fatal = true ∧
    (sends 0x10000000#32 fatal).inputs = .command 0x10000000#32 :: [] ∧ step fatal = .next fatal := ⟨rfl, rfl, rfl⟩

theorem test_witness_NoSessionRefusesAllButInit : isInit .encode = false ∧ State.reset.fatal = false ∧
    State.reset.session = false := by decide

theorem test_witness_Live : live.Live := by decide

theorem test_witness_OutOfRangeIndicesAreRejected : live.Live ∧ indicesInRange (.setDout 8 true) = true ∧
    exec (.setDout 8 true) live = .next { live with dout := 0x80, responses := [0#32] } :=
  ⟨by decide, by decide, rfl⟩

/-- The boundaries of the index domains: the last index in range and the first beyond it. -/
theorem test_witness_EveryCommandCompletesInSession : live.Live ∧ indicesInRange (.setDout 1 true) = true ∧
    indicesInRange (.setDout 8 true) = true ∧ indicesInRange (.setDout 0 true) = false ∧
    indicesInRange (.setDout 9 true) = false ∧ indicesInRange (.setAout 4 0) = true ∧
    indicesInRange (.setAout 5 0) = false ∧ indicesInRange (.setAxis 4 6 0) = true ∧
    indicesInRange (.setAxis 5 6 0) = false ∧ indicesInRange (.setAxis 4 7 0) = false ∧
    indicesInRange (.setButton 4 16 true) = true ∧ indicesInRange (.setButton 4 17 true) = false ∧
    indicesInRange .encode = true := by decide

/-- A valid buffer that keeps the invariant. -/
theorem test_witness_BufferInvariant : encoded.bufValid = true ∧ encoded.BufferInvariant := by
  refine ⟨rfl, fun _ => ⟨rfl, fun off h => ?_, fun off h => ?_, ?_, packBytes live 0, ?_, ?_⟩⟩
  · rw [encoded, encodePacket_buf, read_storePacket _ (packBytes_length _ _)]
    split
    · rw [packBytes_getElem? _ _ (by assumption)]
      rfl
    · rfl
  · rw [encoded, read_encodePacket_body _ (by omega)]
    rcases h with h | h
    · have hz : ∀ o : Fin 24, packByte live live.index (48 + o) = 0 := by decide
      rw [← hz ⟨off - 48, by omega⟩, Nat.add_sub_of_le h.1]
    · rw [packByte_of_ge h.1]
  · refine Memory.readBytes_eq_some (bs := [0x30, 0x32, 0x31, 0x32, 0x31, 0x33, 0x30, 0x30]) fun i hi => ?_
    have hi : i < 8 := hi
    rw [encoded, read_encodePacket_body _ (by omega)]
    have hz : ∀ o : Fin 8, some (packByte live live.index (72 + o)) =
        [0x30, 0x32, 0x31, 0x32, 0x31, 0x33, 0x30, 0x30][o.val]? := by decide
    exact hz ⟨i, hi⟩
  · rw [encoded, encodePacket_buf]
    exact readBytes_storePacket_body _ (packBytes_length _ _)
  · rw [encoded, encodePacket_buf]
    exact memRead_storePacket_checksum _ (packBytes_length _ _)

theorem test_witness_StepStopsOnlyAtAnInvalidBuffer : State.reset.inputs = [] ∧ live.bufValid = false ∧
    ({ live with inputs := [.readByte 1023] } : State).inputs = .readByte 1023 :: [] := by decide

theorem test_witness_TransportReadGivesTheByte :
    ({ live with bufValid := true, buf := [(1023, 0x5A)], inputs := [.readByte 1023, .command 0#32] } : State).inputs =
      .readByte 1023 :: [.command 0#32] ∧
    ({ live with bufValid := true, buf := [(1023, 0x5A)], inputs := [.readByte 1023, .readByte 1023] } : State).inputs =
      .readByte 1023 :: .readByte 1023 :: [] ∧
    Memory.read [(1023, 0x5A)] (1023 : BitVec 10).toNat = some 0x5A := by decide

/-- What every rule of a command but INIT assumes, each in turn. -/
theorem test_witness_RefusedOutOfSession : fatal.fatal = true ∧ State.reset.fatal = false ∧
    State.reset.session = false := by decide

theorem test_witness_InitRule : opField 0x1100045A#32 = 0x1 ∧ fatal.fatal = true ∧ live.fatal = false ∧
    State.reset.fatal = false := by decide

theorem test_witness_SetEstopRule : opField 0x20000002#32 = 0x2 ∧ opField 0x20000001#32 = 0x2 ∧ live.Live := by decide

theorem test_witness_GetEstopRule : opField 0x30000001#32 = 0x3 ∧ live.Live := by decide

theorem test_witness_SetEnabledRule : opField 0x41000000#32 = 0x4 ∧ live.Live := by decide

theorem test_witness_GetEnabledRule : opField 0x50010000#32 = 0x5 ∧ live.Live := by decide

theorem test_witness_SetModeRule : opField 0x60000003#32 = 0x6 ∧ opField 0x60000002#32 = 0x6 ∧ live.Live := by decide

theorem test_witness_GetModeRule : opField 0x70000001#32 = 0x7 ∧ live.Live ∧
    ({ live with cf := 0x20 } : State).ModeBitsExclusive ∧ ({ live with cf := 0x04 } : State).ModeBitsExclusive ∧
    ¬ ({ live with cf := 0x24 } : State).ModeBitsExclusive := by decide

theorem test_witness_SetAllianceRule : opField 0x80000052#32 = 0x8 ∧ live.Live := by decide

theorem test_witness_SetPositionRule : opField 0x90010002#32 = 0x9 ∧ live.Live ∧
    ((-32768 : Int) ≤ -32768 ∧ (-32768 : Int) ≤ 32767) := by decide

theorem test_witness_SetDoutRule : opField 0xA1010001#32 = 0xA ∧ live.Live ∧ (255 ≤ 255) ∧ (0 = 0 ∨ 9 ≤ 0) ∧
    (9 = 0 ∨ 9 ≤ 9) ∧ (1 ≤ 1 ∧ 1 ≤ 8) ∧ (1 ≤ 8 ∧ 8 ≤ 8) := by decide

theorem test_witness_SetAoutRule : opField 0xB1010001#32 = 0xB ∧ live.Live ∧ (5 = 0 ∨ 5 ≤ 5) ∧ 255 ≤ 255 ∧
    ((-32768 : Int) ≤ 32767 ∧ (32767 : Int) ≤ 32767) ∧ (3 : Fin 4).val + 1 = 4 := by decide

theorem test_witness_SetAxisRule : opField 0xCFFF8000#32 = 0xC ∧ live.Live ∧ (15 ≤ 15 ∧ 255 ≤ 255) ∧
    ((-32768 : Int) ≤ -32768 ∧ (-32768 : Int) ≤ 32767) ∧
    (5 = 0 ∨ 5 ≤ 5 ∨ 1 = 0 ∨ 7 ≤ 1) ∧ (4 = 0 ∨ 5 ≤ 4 ∨ 7 = 0 ∨ 7 ≤ 7) ∧ (5 : Fin 6).val + 1 = 6 := by decide

theorem test_witness_SetButtonRule : opField 0xD5110002#32 = 0xD ∧ live.Live ∧ (5 = 0 ∨ 5 ≤ 5 ∨ 1 = 0 ∨ 17 ≤ 1) ∧
    (4 = 0 ∨ 5 ≤ 4 ∨ 17 = 0 ∨ 17 ≤ 17) ∧ (1 ≤ 16 ∧ 16 ≤ 16) := by decide

theorem test_witness_EncodeRule : opField 0xE0000001#32 = 0xE ∧ live.Live ∧ 1023 < 1024 ∧ 1024 ≤ 1024 := by decide

theorem test_witness_EncodeWritesTheWireLayout : live.Live ∧ (48 ≤ 48 ∧ 48 ≤ 71 ∨ 80 ≤ 48 ∧ 48 ≤ 1019) ∧
    (48 ≤ 1019 ∧ 1019 ≤ 71 ∨ 80 ≤ 1019 ∧ 1019 ≤ 1019) := by decide

theorem test_witness_EncodeAppendsTheChecksum : live.Live := by decide

theorem test_witness_IndexCountsPackets : ({ live with index := 65534 } : State).Live ∧ State.reset.fatal = false ∧
    (∀ c ∈ [Instr.encode, .setDout 9 true, .encode], isInit c = false) ∧ ¬ State.reset.Live ∧ 3 = 2 + 1 ∧
    Instr.getMode ≠ .encode ∧ exec .getMode live = .next (live.answered 0#32) :=
  ⟨by decide, by decide, by decide, by decide, by decide, by decide, rfl⟩

theorem test_witness_EncodeIsDeterministic : live.Live ∧ ({ live with buf := [(7, 1)] } : State).Live ∧
    live.cf = ({ live with buf := [(7, 1)] } : State).cf ∧ 1023 < 1024 ∧ 2 ≤ 1019 ∧ 1019 ≤ 1019 := by decide

theorem test_witness_BitsReadBackInThePacket : live.Live ∧ (1 ≤ 8 ∧ 8 ≤ 8) ∧ (1 ≤ 4 ∧ 4 ≤ 4) ∧ (1 ≤ 16 ∧ 16 ≤ 16) := by
  decide

theorem test_witness_ClampedValuesArriveOnTheWire : live.Live ∧ (1 ≤ 4 ∧ 4 ≤ 4) ∧ (1 ≤ 6 ∧ 6 ≤ 6) := by decide

theorem test_witness_SerialEncoderRefinesEncode : ({ live with buf := [(7, 1)] } : State).Live ∧
    ({ live with buf := [(7, 1)] } : State).buf.wf := by decide

theorem test_witness_FlagsReadBack : live.Live ∧ live.cfg.wellFormed = true ∧
    (∀ c ∈ [Instr.setMode .test, .getEstop, .setEnabled true],
      isControlFlagCommand c = true ∧ ∀ x, c ≠ .setEstop x) ∧
    (∀ c ∈ [Instr.setMode .test, .getEnabled, .setEstop true],
      isControlFlagCommand c = true ∧ ∀ x, c ≠ .setEnabled x) := by
  refine ⟨by decide, by decide, ?_, ?_⟩ <;> simp [isControlFlagCommand]

theorem test_witness_ModeReadsBack : live.Live ∧ live.cfg.wellFormed = true ∧ State.reset.fatal = false := by decide

theorem test_witness_SettersOfDifferentFieldsCommute : live.Live ∧ live.cfg.wellFormed = true ∧
    setterField (.setAxis 4 6 5) = some (.axis 4 6) ∧ setterField (.setAxis 4 5 5) = some (.axis 4 5) ∧
    SetterField.axis 4 6 ≠ .axis 4 5 ∧ indicesInRange (.setAxis 4 6 5) = true ∧ indicesInRange (.setAxis 4 5 5) = true ∧
    setterField (.setEstop true) = some .estop ∧ setterField (.setMode .test) = some .mode ∧
    SetterField.estop ≠ .mode := by decide

theorem test_encode_completes : exec .encode live = .next (encoded.respond .ok 0) := by
  have h : live.index = 0 := rfl
  rw [exec_live (i := .encode) rfl rfl rfl, writesOf, dataOf, h, encoded]

theorem test_witness_AllButEncodeAreIdempotent : Instr.setDout 9 true ≠ .encode ∧ live.Live ∧
    exec (.setDout 9 true) live = .next (live.answered 0x10000000#32) ∧
    exec .encode live = .next (encoded.respond .ok 0) := ⟨by decide, by decide, rfl, test_encode_completes⟩

theorem test_witness_TeamIsImmutableInASession : isInit .getMode = false ∧
    exec .getMode live = .next (live.answered 0#32) ∧ live.Live ∧ live.fatal = false :=
  ⟨by decide, rfl, by decide, by decide⟩

theorem test_witness_SessionsAreIndependent : live.fatal = false ∧ State.reset.fatal = false ∧
    live.cfg = State.reset.cfg := by decide

theorem test_witness_OnlyListedCommandsWriteEachRegister : exec .getMode live = .next (live.answered 0#32) := rfl

theorem test_witness_SessionInvariantIsKept : (sends 0x60000001#32 live).SessionInvariant ∧
    step (sends 0x60000001#32 live) = .next { live with cf := 0x04, responses := [0#32] } :=
  ⟨by decide, rfl⟩

theorem test_witness_BufferStaysCanonical : (sends 0xE0000000#32 { live with buf := [(3, 1), (7, 1)] }).buf.wf ∧
    step (sends 0xE0000000#32 { live with buf := [(3, 1), (7, 1)] }) =
      .next ((encodePacket { live with buf := [(3, 1), (7, 1)] }).respond .ok 0) := by
  refine ⟨by decide, ?_⟩
  rw [step_command (rest := []) rfl, acceptCommand_ok (i := .encode) (by decide), exec_live (i := .encode) rfl rfl rfl,
    writesOf, dataOf]
  have h : ({ live with buf := [(3, 1), (7, 1)] } : State).index = 0 := rfl
  simp only [sends, h]
  rfl

theorem test_witness_ValidBufferHoldsACompletePacket : encoded.bufValid = true ∧ encoded.BufferInvariant ∧
    step encoded = .next encoded := by
  have h : encoded.inputs = [] := encodePacket_inputs live
  exact ⟨test_witness_BufferInvariant.1, test_witness_BufferInvariant.2, by simp only [step, h]⟩

theorem test_witness_ResponsesStayWellFormed :
    (∀ r ∈ ({ fatal with responses := [0x10000000#32, 0x00000002#32] } : State).responses, responseWellFormed r) ∧
    step { fatal with responses := [0x10000000#32, 0x00000002#32] } =
      .next { fatal with responses := [0x10000000#32, 0x00000002#32] } := by
  constructor
  · intro r h
    have h : r ∈ [0x10000000#32, 0x00000002#32] := h
    simp only [List.mem_cons, List.not_mem_nil, or_false] at h
    rcases h with rfl | rfl <;> decide
  · rfl

theorem test_witness_HardwareResetLeavesNoSession : isInit .encode = false := by decide

end Sys2Proof.Tests
end

/-! O3, O7, O8 (30_encoding.md): which words decode, and how every command word is answered.

The decoder's result is first read off row by row: as a truth value (`decode_isOk`) and, where a word decodes, as the
word of its command (`wellFormed_encodeInstr_of_decode`). The decode order R103 is then one case analysis,
`acceptCommand_cases`, from which O7 and O8 follow. -/

namespace Sys2Proof

/-! ## The decoder against the table of R99 -/

theorem isOk_ok {ε α : Type} (x : α) : (Except.ok x : Except ε α).isOk = true := rfl

theorem isOk_error {ε α : Type} (e : ε) : (Except.error e : Except ε α).isOk = false := rfl

theorem requireUnused_isOk (c : Bool) (r : Except DecodeError Instr) : (requireUnused c r).isOk = (c && r.isOk) := by
  cases c <;> rfl

theorem requireKind_isOk {α : Type} (v : Option α) (mk : α → Instr) : (requireKind v mk).isOk = v.isSome := by
  cases v <;> rfl

theorem readBool_isSome (imm : Half) : (readBool imm).isSome = decide (imm.toNat ≤ 1) := by
  have h : imm.toNat ≤ 1 ↔ imm = 0 ∨ imm = 1 := by bv_omega
  unfold readBool
  split_ifs <;> simp_all

theorem readAlliance_isSome (imm : Half) : (readAlliance imm).isSome = decide (imm.toNat ≤ 1) := by
  have h : imm.toNat ≤ 1 ↔ imm = 0 ∨ imm = 1 := by bv_omega
  unfold readAlliance
  split_ifs <;> simp_all

theorem readMode_isSome (imm : Half) : (readMode imm).isSome = decide (imm.toNat ≤ 2) := by
  have h : imm.toNat ≤ 2 ↔ imm = 0 ∨ imm = 1 ∨ imm = 2 := by bv_omega
  unfold readMode
  split_ifs <;> simp_all

theorem beq_zero_eq_toNat_beq_zero {n : Nat} (x : BitVec n) : (x == 0) = (x.toNat == 0) := by
  rw [Bool.eq_iff_iff, beq_iff_eq, beq_iff_eq, BitVec.toNat_eq, BitVec.ofNat_eq_ofNat, BitVec.toNat_zero]

theorem readNone_isSome (imm : Half) : (readNone imm).isSome = (imm.toNat == 0) := by
  rw [← beq_zero_eq_toNat_beq_zero]
  unfold readNone
  split_ifs <;> simp_all

/-- The rows of R97 and the rows of R99 agree, opcode by opcode. -/
theorem decode_isOk (w : Word) : (decode w).isOk = Machine.legalWord w := by
  have hop : (opField w).toNat < 16 := (opField w).isLt
  unfold decode decodeFields Machine.legalWord
  generalize (opField w).toNat = op at hop
  interval_cases op <;>
    simp only [requireUnused_isOk, requireKind_isOk, readBool_isSome, readAlliance_isSome, readMode_isSome,
      readNone_isSome, beq_zero_eq_toNat_beq_zero, isOk_ok, isOk_error, Bool.and_true]

theorem exists_decode_iff_legalWord (w : Word) : (∃ i, decode w = .ok i) ↔ Machine.legalWord w = true := by
  rw [← decode_isOk]
  cases decode w <;> simp [Except.isOk, Except.toBool]

theorem decode_reservedOpcode {w : Word} (h : opField w = 0x0 ∨ opField w = 0xF) :
    decode w = .error .reservedOpcode := by
  rcases h with h | h <;> rw [decode, h] <;> rfl

/-! ## The command a word decodes to -/

/-- R97 read backwards, row by row: a row's conditions on the unused fields and the immediate make the fields those of
the command's own word. -/
theorem wellFormed_encodeInstr_of_decodeFields {op a : BitVec 4} {b : Byte} {imm : Half} {i : Instr}
    (h : decodeFields op a b imm = .ok i) : i.wellFormed = true ∧ encodeInstr i = packWord op a b imm := by
  have ha : fitsA a.toNat = true := decide_eq_true (by omega)
  have hb : fitsB b.toNat = true := decide_eq_true (by omega)
  have hop : op.toNat < 16 := op.isLt
  rw [show op = BitVec.ofNat 4 op.toNat by simp]
  unfold decodeFields at h
  generalize op.toNat = n at h hop ⊢
  revert h
  interval_cases n <;>
    simp only [requireUnused_eq_ok, requireKind_eq_ok, readBool_eq_some, readMode_eq_some, readAlliance_eq_some,
      readNone_eq_some, Bool.and_eq_true, beq_iff_eq, Except.ok.injEq, reduceCtorEq, and_imp, forall_exists_index,
      false_imp_iff] <;>
    intros <;> subst_vars <;>
    simp [Instr.wellFormed, encodeInstr, ha, hb, fitsInt_readInt, intImm_readInt]

theorem wellFormed_encodeInstr_of_decode {w : Word} {i : Instr} (h : decode w = .ok i) :
    i.wellFormed = true ∧ encodeInstr i = w := by
  have hw := wellFormed_encodeInstr_of_decodeFields h
  rwa [packWord_fields] at hw

theorem opField_encodeInstr (i : Instr) : opField (encodeInstr i) = i.opcode := by
  cases i <;> exact opField_packWord ..

theorem opField_of_decode {w : Word} {i : Instr} (h : decode w = .ok i) : opField w = i.opcode := by
  rw [← (wellFormed_encodeInstr_of_decode h).2, opField_encodeInstr]

namespace Machine

theorem isInit_eq_opcode (i : Instr) : isInit i = (i.opcode.toNat == 1) := by cases i <;> rfl

/-- R211 on words and on commands is one table: the four indexed rows are compared through their fields. -/
theorem wordOutOfRange_encodeInstr {i : Instr} (h : i.wellFormed = true) :
    wordOutOfRange (encodeInstr i) = !indicesInRange i := by
  unfold wordOutOfRange
  rw [opField_encodeInstr]
  cases i with
  | setDout | setAout | setAxis | setButton =>
    simp only [Instr.wellFormed, fitsA, fitsB, Bool.and_eq_true, decide_eq_true_eq] at h
    rw [Bool.eq_iff_iff]
    simp only [Instr.opcode, encodeInstr, indicesInRange, aField_packWord, bField_packWord, BitVec.reduceToNat,
      BitVec.toNat_ofNat, Bool.or_eq_true, Bool.not_eq_true', beq_iff_eq, decide_eq_true_eq, decide_eq_false_iff_not]
    omega
  | _ => rfl

theorem isInit_of_decode {w : Word} {i : Instr} (h : decode w = .ok i) :
    isInit i = ((opField w).toNat == 1) := by
  rw [opField_of_decode h, isInit_eq_opcode]

theorem wordOutOfRange_of_decode {w : Word} {i : Instr} (h : decode w = .ok i) :
    wordOutOfRange w = !indicesInRange i := by
  obtain ⟨hwf, rfl⟩ := wellFormed_encodeInstr_of_decode h
  exact wordOutOfRange_encodeInstr hwf

theorem legalWord_of_decode {w : Word} {i : Instr} (h : decode w = .ok i) : legalWord w = true :=
  (exists_decode_iff_legalWord w).1 ⟨i, h⟩

theorem legalWord_of_decode_error {w : Word} {e : DecodeError} (h : decode w = .error e) : legalWord w = false := by
  rw [← decode_isOk, h, isOk_error]

/-! ## The decode order (R103) -/

theorem indicesInRange_of_isInit {i : Instr} (h : isInit i = true) : indicesInRange i = true := by
  obtain ⟨team, rfl⟩ := eq_init_of_isInit h
  rfl

/-- A command that passes every test of R103 completes; INIT needs no session. -/
theorem exec_completes {i : Instr} {s : State} (hf : s.fatal = false) (hs : s.session = true ∨ isInit i = true)
    (hr : indicesInRange i = true) : exec i s = .next ((writesOf i s).respond .ok (dataOf i s)) := by
  rcases hs with hs | hi
  · exact exec_live hf hs hr
  · obtain ⟨team, rfl⟩ := eq_init_of_isInit hi
    exact exec_init hf team

theorem acceptCommand_fatal {s : State} (h : s.fatal = true) (w : Word) :
    acceptCommand w s = .next (s.respond .invariantViolation 0) := by
  cases hd : decode w with
  | error e => rw [acceptCommand_error hd, if_pos h]
  | ok i => rw [acceptCommand_ok hd, exec_fatal h]

theorem expectedStatus_of_fatal {s : State} (h : s.fatal = true) (w : Word) : expectedStatus s w = 2 := if_pos h

theorem expectedStatus_of_decode_error {s : State} {w : Word} {e : DecodeError} (hf : s.fatal = false)
    (h : decode w = .error e) : expectedStatus s w = 3 := by
  simp [expectedStatus, hf, legalWord_of_decode_error h]

/-- Steps 3 and 4 of R103, read on the command instead of the word. -/
theorem expectedStatus_of_decode {s : State} {w : Word} {i : Instr} (hf : s.fatal = false) (h : decode w = .ok i) :
    expectedStatus s w =
      if isInit i = false ∧ s.session = false then 4 else if indicesInRange i = false then 1 else 0 := by
  simp [expectedStatus, hf, legalWord_of_decode h, isInit_of_decode h, wordOutOfRange_of_decode h]

/-- Everything accepting a command word can do: the first failing test of R103 answers with data 0 and nothing else
changes, or no test fails and the word's command completes. -/
theorem acceptCommand_cases (w : Word) (s : State) :
    (∃ st, st ≠ Status.ok ∧ expectedStatus s w = st.code.toNat ∧ acceptCommand w s = .next (s.respond st 0)) ∨
    (expectedStatus s w = 0 ∧ ∃ i, decode w = .ok i ∧ acceptCommand w s = exec i s ∧
      exec i s = .next ((writesOf i s).respond .ok (dataOf i s))) := by
  cases hf : s.fatal with
  | true => exact .inl ⟨.invariantViolation, by decide, expectedStatus_of_fatal hf w, acceptCommand_fatal hf w⟩
  | false =>
    cases hd : decode w with
    | error e =>
      exact .inl ⟨.illegalCommand, by decide, expectedStatus_of_decode_error hf hd,
        by simp [acceptCommand_error hd, hf]⟩
    | ok i =>
      rw [acceptCommand_ok hd, expectedStatus_of_decode hf hd]
      split_ifs with hsession hrange
      · exact .inl ⟨.noSession, by decide, rfl, exec_noSession hf hsession.2 hsession.1⟩
      · have hi : isInit i = false := by
          by_contra hi
          simp [indicesInRange_of_isInit (by simpa using hi)] at hrange
        exact .inl ⟨.outOfRange, by decide, rfl, exec_outOfRange hf (by simpa [hi] using hsession) hrange⟩
      · have hs : s.session = true ∨ isInit i = true := by
          cases hi : isInit i <;> simp_all
        exact .inr ⟨rfl, i, rfl, rfl, exec_completes hf hs (by simpa using hrange)⟩

/-! ## The response word (R100, R101) -/

theorem Status.code_toNat_eq_zero {st : Status} : st.code.toNat = 0 ↔ st = .ok := by cases st <;> decide

/-- The response of a fault is its status alone. -/
theorem responseWord_zero_data (st : Status) : responseWord st 0 = BitVec.ofNat 32 st.code.toNat <<< 28 := by
  cases st <;> rfl

theorem responseWellFormed_responseWord {st : Status} {d : Half} (h : st ≠ .ok → d = 0) :
    responseWellFormed (responseWord st d) := by
  rw [responseWellFormed, responseWord_zero, responseWord_status, responseWord_data]
  exact ⟨rfl, by cases st <;> decide, fun hst => h (by rintro rfl; exact hst rfl)⟩

/-! ## The obligations -/

/-- Settles O3: the rows of the decoder and of R99 agree on every word (`decode_isOk`). -/
theorem decoderAcceptsExactlyTheLegalWords : Obligations.DecoderAcceptsExactlyTheLegalWords :=
  ⟨exists_decode_iff_legalWord, fun _ => decode_reservedOpcode⟩

/-- Settles O7, by the cases of the decode order on the state without the input taken. -/
theorem decodeOrderDecidesTheResponse : Obligations.DecodeOrderDecidesTheResponse := by
  intro s w rest h
  rw [step_command h]
  have hstatus : expectedStatus { s with inputs := rest } w = expectedStatus s w := rfl
  rcases acceptCommand_cases w { s with inputs := rest } with ⟨st, hst, hcode, hnext⟩ | ⟨hcode, i, hd, hexec, hnext⟩
  · rw [hstatus] at hcode
    refine ⟨_, responseWord st 0, hnext, rfl, rfl, by rw [responseWord_status, hcode], fun _ => ⟨?_, rfl⟩, fun h0 => ?_⟩
    · rw [hcode, responseWord_zero_data]
    · exact absurd (Status.code_toNat_eq_zero.1 (hcode ▸ h0)) hst
  · refine ⟨_, responseWord .ok (dataOf i { s with inputs := rest }), hexec.trans hnext, by simp, by simp, ?_,
      fun h0 => absurd hcode h0, fun _ => ⟨i, hd, hnext⟩⟩
    rw [responseWord_status, ← hstatus, hcode]
    rfl

/-- Settles O8: refused or completed, a command adds one response word (`acceptCommand_cases`), and every such word has
the format of R100. -/
theorem oneResponsePerCommand : Obligations.OneResponsePerCommand := by
  intro s w rest h
  rw [step_command h]
  rcases acceptCommand_cases w { s with inputs := rest } with ⟨st, -, -, hnext⟩ | ⟨-, i, -, hexec, hnext⟩
  · exact ⟨_, responseWord st 0, hnext, rfl, responseWellFormed_responseWord fun _ => rfl⟩
  · exact ⟨_, responseWord .ok (dataOf i { s with inputs := rest }), hexec.trans hnext, by simp,
      responseWellFormed_responseWord fun hst => absurd rfl hst⟩

end Machine

end Sys2Proof

/-! O44, O17, O45 (40_session.md): INIT and what a session keeps.

INIT is one record update (`exec_init`), so O17 and O45 compare that update with the statement. For O44 a completed
command is `writesOf` (`exec_cases`), and `TEAM` is followed through it and through the two bytes packed from it. -/

namespace Sys2Proof

/-- The word of a row that uses neither `a` nor `b` (R97): opcode and immediate. -/
theorem packWord_zero_zero (op : BitVec 4) (imm : Half) :
    packWord op 0 0 imm = (op.setWidth 32 <<< 28) ||| imm.setWidth 32 := by
  simp [packWord]

namespace Machine

/-! ## Which words of an opcode are commands -/

theorem exists_decode_error_of_not_legalWord {w : Word} (h : legalWord w ≠ true) : ∃ e, decode w = .error e := by
  cases hd : decode w with
  | error e => exact ⟨e, rfl⟩
  | ok i => exact absurd (legalWord_of_decode hd) h

theorem acceptCommand_of_not_legalWord {w : Word} (h : legalWord w ≠ true) {s : State} (hf : s.fatal = false) :
    acceptCommand w s = .next (s.answered 0x30000000#32) := by
  obtain ⟨e, hd⟩ := exists_decode_error_of_not_legalWord h
  rw [acceptCommand_error hd, hf]
  rfl

/-- A row of R99 settles its opcode: the decoder and the answer to an illegal word follow the table. -/
theorem legalExactlyWhen_of_legalWord {op : BitVec 4} {legal : Word → Prop}
    (h : ∀ w, opField w = op → (legalWord w = true ↔ legal w)) : LegalExactlyWhen op legal := fun w hop =>
  ⟨(exists_decode_iff_legalWord w).trans (h w hop),
    fun hl _ hf => acceptCommand_of_not_legalWord (fun hw => hl ((h w hop).1 hw)) hf⟩

/-- The row of INIT in R99. -/
theorem legalWord_init {w : Word} (h : opField w = 0x1) : legalWord w = true ↔ aField w = 0 ∧ bField w = 0 := by
  simp [legalWord, h, ← BitVec.toNat_inj]

/-! ## The team number -/

/-- The column `written by` of R20 for `TEAM`: INIT alone. -/
theorem writesOf_team {i : Instr} (h : isInit i = false) (s : State) : (writesOf i s).team = s.team := by
  cases i with
  | init team => cases h
  | setDout | setAout | setAxis | setButton => simp only [writesOf]; split <;> rfl
  | _ => rfl

theorem exec_team {i : Instr} (hi : isInit i = false) {s t : State} (h : exec i s = .next t) : t.team = s.team := by
  rcases exec_cases h with ⟨st, -, rfl⟩ | ⟨-, -, -, rfl⟩
  · rfl
  · exact writesOf_team hi s

theorem packByte_team_hi (s : State) (idx : Half) : packByte s idx 4 = hiByte s.team := rfl

theorem packByte_team_lo (s : State) (idx : Half) : packByte s idx 5 = loByte s.team := rfl

/-! ## A fresh session -/

/-- R122: of the state before INIT only the parameters, `FATAL`, the bytes of the buffer and the ports' data are left. -/
theorem freshSession_congr (team : Half) {s s' : State} (hcfg : s.cfg = s'.cfg) (hfatal : s.fatal = s'.fatal) :
    freshSession team s = { freshSession team s' with
      buf := s.buf, inputs := s.inputs, responses := s.responses, readData := s.readData } := by
  simp only [freshSession, hcfg, hfatal]

/-! ## The obligations -/

/-- Settles O44: no write of another command is to `TEAM` (`exec_team`), ENCODE packs its two bytes big-endian, and INIT
writes it. -/
theorem teamIsImmutableInASession : Obligations.TeamIsImmutableInASession := by
  refine ⟨fun i s t hi h => exec_team hi h, fun s ⟨hf, hs⟩ => ?_,
    fun team s hf => ⟨_, exec_init hf team, rfl, rfl⟩⟩
  have hnext : exec .encode s = .next ((encodePacket s).respond .ok s.index) := exec_live hf hs rfl
  refine ⟨_, hnext, hiByte s.team, loByte s.team, ?_, ?_, ofBigEndian_hi_lo s.team⟩
  · rw [State.respond_buf, read_encodePacket_body s (by omega), packByte_team_hi]
  · rw [State.respond_buf, read_encodePacket_body s (by omega), packByte_team_lo]

/-- Settles O17: the word and its row of R99, the refusal in the fatal state, and the template of `freshSession`. -/
theorem initRule : Obligations.InitRule :=
  ⟨fun team => packWord_zero_zero 0x1 team, legalExactlyWhen_of_legalWord fun _ => legalWord_init,
    fun team _ hf => exec_fatal hf (.init team), fun team _ hf => exec_init hf team⟩

/-- Settles O45: INIT completes in both states, and `freshSession` takes nothing else from either
(`freshSession_congr`). -/
theorem sessionsAreIndependent : Obligations.SessionsAreIndependent := by
  intro team s s' hf hf' hcfg
  refine ⟨_, _, exec_init hf team, exec_init hf' team, rfl, rfl, ?_⟩
  rw [freshSession_congr team hcfg (hf.trans hf'.symm)]
  rfl

end Machine

end Sys2Proof

/-! O18 to O22 (41_control_flags.md): the two flags of the control byte and its mode pair.

A rule of a command that needs a session has four parts, each settled by one lemma for every such command: its word
(`packWord_zero_zero`), its row of R99 (`legalExactlyWhen_of_legalWord`), its two refusals (`refusedOutOfSession`), and
what it does in a session (`exec_of_live`). -/

namespace Sys2Proof

/-- The word of a row whose one operand is a boolean (R92, R97). -/
theorem packWord_zero_zero_boolImm (op : BitVec 4) (v : Bool) :
    packWord op 0 0 (boolImm v) = (op.setWidth 32 <<< 28) ||| if v then 1 else 0 := by
  rw [packWord_zero_zero]
  cases v <;> rfl

namespace Machine

/-! ## The rows of R99 without joystick and channel -/

/-- The rows whose immediate is a boolean or an alliance: both kinds have the codes 0 and 1. -/
theorem legalWord_twoCodes {w : Word} (h : opField w = 0x2 ∨ opField w = 0x4 ∨ opField w = 0x8) :
    legalWord w = true ↔ aField w = 0 ∧ bField w = 0 ∧ (immField w).toNat ≤ 1 := by
  rcases h with h | h | h <;> simp [legalWord, h, ← BitVec.toNat_inj, and_assoc]

/-- The rows of the commands without operands. -/
theorem legalWord_noOperand {w : Word} (h : opField w = 0x3 ∨ opField w = 0x5 ∨ opField w = 0x7 ∨ opField w = 0xE) :
    legalWord w = true ↔ aField w = 0 ∧ bField w = 0 ∧ immField w = 0 := by
  rcases h with h | h | h | h <;> simp [legalWord, h, ← BitVec.toNat_inj, and_assoc]

/-- The row of SET_MODE. -/
theorem legalWord_setMode {w : Word} (h : opField w = 0x6) :
    legalWord w = true ↔ aField w = 0 ∧ bField w = 0 ∧ (immField w).toNat ≤ 2 := by
  simp [legalWord, h, ← BitVec.toNat_inj, and_assoc]

/-! ## Outside and inside a session -/

/-- Steps 1 and 3 of R103 refuse every command but INIT. -/
theorem refusedOutOfSession {i : Instr} (hi : isInit i = false) : RefusedOutOfSession i :=
  ⟨fun _ hf => exec_fatal hf i, fun _ hf hs => exec_noSession hf hs hi⟩

/-- `exec_live` with the response word written out: an `OK` response is its data. -/
theorem exec_of_live {i : Instr} (hi : indicesInRange i = true) {s : State} (h : s.Live) :
    exec i s = .next ((writesOf i s).answered ((dataOf i s).setWidth 32)) := by
  rw [exec_live h.1 h.2 hi, State.respond_eq, responseWord_ok]

/-- The bit test of R136 as a response: 1 for a bit that is set, whatever its place in the byte. -/
theorem setWidth_flagData_testMask (field mask : Byte) :
    (flagData (testMask field mask)).setWidth 32 = if field &&& mask ≠ 0 then 0x00000001#32 else 0x00000000#32 := by
  split_ifs with h
  · rw [testMask_eq_true.2 h]
    rfl
  · rw [testMask_eq_false.2 (not_not.1 h)]
    rfl

/-! ## The obligations -/

/-- Settles O18: the writes of SET_ESTOP are `assignMask` at the emergency stop mask, which is R130's case split. -/
theorem setEstopRule : Obligations.SetEstopRule :=
  ⟨packWord_zero_zero_boolImm 0x2, legalExactlyWhen_of_legalWord fun _ h => legalWord_twoCodes (.inl h),
    fun _ => refusedOutOfSession rfl, fun _ _ h => exec_of_live rfl h⟩

/-- Settles O19: GET_ESTOP writes nothing, and its data is the bit test of R136 (`setWidth_flagData_testMask`). -/
theorem getEstopRule : Obligations.GetEstopRule :=
  ⟨packWord_zero_zero 0x3 0, legalExactlyWhen_of_legalWord fun _ h => legalWord_noOperand (.inl h),
    refusedOutOfSession rfl, fun s h => by
      rw [exec_of_live rfl h, dataOf, setWidth_flagData_testMask, writesOf]⟩

/-- Settles O20: the writes of SET_ENABLED are `assignMask` at the enabled mask, which is R132's case split. -/
theorem setEnabledRule : Obligations.SetEnabledRule :=
  ⟨packWord_zero_zero_boolImm 0x4, legalExactlyWhen_of_legalWord fun _ h => legalWord_twoCodes (.inr (.inl h)),
    fun _ => refusedOutOfSession rfl, fun _ _ h => exec_of_live rfl h⟩

/-- Settles O21: GET_ENABLED writes nothing, and its data is the bit test of R136 (`setWidth_flagData_testMask`). -/
theorem getEnabledRule : Obligations.GetEnabledRule :=
  ⟨packWord_zero_zero 0x5 0, legalExactlyWhen_of_legalWord fun _ h => legalWord_noOperand (.inr (.inl h)),
    refusedOutOfSession rfl, fun s h => by
      rw [exec_of_live rfl h, dataOf, setWidth_flagData_testMask, writesOf]⟩

/-- Settles O22: the writes of SET_MODE are `writeMode`, mode by mode the pair of R134. -/
theorem setModeRule : Obligations.SetModeRule := by
  refine ⟨⟨packWord_zero_zero 0x6 0, packWord_zero_zero 0x6 1, packWord_zero_zero 0x6 2⟩,
    legalExactlyWhen_of_legalWord fun _ => legalWord_setMode, fun _ => refusedOutOfSession rfl, fun m s h => ?_⟩
  rw [exec_of_live rfl h]
  cases m <;> rfl

end Machine

end Sys2Proof

/-! O24, O25 (42_station.md): the two station bytes, by the four parts of a session command's rule (above O18). -/

namespace Sys2Proof

/-- The immediate of an integer operand, in its word: the residue that R105 stores. -/
theorem setWidth_intImm (v : Int) : (intImm v).setWidth 32 = BitVec.ofInt 32 (v % 65536) := by
  apply BitVec.eq_of_toNat_eq
  simp only [intImm, BitVec.toNat_setWidth, BitVec.toNat_ofInt]
  omega

namespace Machine

/-- The row of SET_POSITION in R99: every immediate is legal. -/
theorem legalWord_setPosition {w : Word} (h : opField w = 0x9) :
    legalWord w = true ↔ aField w = 0 ∧ bField w = 0 := by
  simp [legalWord, h, ← BitVec.toNat_inj]

/-- R151 stores the byte of position 1 for 1 and for every integer that is no position. -/
theorem positionByte_eq (p : Int) : positionByte p = if p = 2 then 49 else if p = 3 then 50 else 48 := by
  by_cases h : p = 1
  · subst h
    rfl
  · rw [positionByte, if_neg h]

/-! ## The obligations -/

/-- Settles O24: the write of SET_ALLIANCE is `allianceByte`, alliance by alliance the byte of R150. -/
theorem setAllianceRule : Obligations.SetAllianceRule := by
  refine ⟨⟨packWord_zero_zero 0x8 0, packWord_zero_zero 0x8 1⟩,
    legalExactlyWhen_of_legalWord fun _ h => legalWord_twoCodes (.inr (.inr h)), fun _ => refusedOutOfSession rfl,
    fun al s h => ?_⟩
  rw [exec_of_live rfl h]
  cases al <;> rfl

/-- Settles O25: the write of SET_POSITION is `positionByte`, which falls back to position 1 (`positionByte_eq`); its
immediate is the operand's residue (`setWidth_intImm`). -/
theorem setPositionRule : Obligations.SetPositionRule := by
  refine ⟨fun p _ _ => ?_, legalExactlyWhen_of_legalWord fun _ => legalWord_setPosition,
    fun _ => refusedOutOfSession rfl, fun p s h => ?_⟩
  · rw [encodeInstr, packWord_zero_zero, setWidth_intImm]
    rfl
  · rw [exec_of_live rfl h, writesOf, positionByte_eq]
    rfl

end Machine

end Sys2Proof

/-! O26, O27 (43_outputs.md): the digital and the analog outputs.

Beside the four parts of a session command's rule (above O18), an indexed command has a fifth: an index out of range is
rejected (`exec_of_outOfRange`). -/

namespace Sys2Proof

/-- The immediate of a boolean operand, in its word. -/
theorem setWidth_boolImm (v : Bool) : (boolImm v).setWidth 32 = if v then 1 else 0 := by cases v <;> rfl

/-- The word of a row whose one index is a channel (R97): a channel that fits the field `b` stands in it unchanged. -/
theorem packWord_zero_channel (op : BitVec 4) {ch : Nat} (h : ch ≤ 255) (imm : Half) :
    packWord op 0 (BitVec.ofNat 8 ch) imm =
      (op.setWidth 32 <<< 28) ||| (BitVec.ofNat 32 ch <<< 16) ||| imm.setWidth 32 := by
  rw [packWord, BitVec.setWidth_ofNat_of_le_of_lt (by decide) (Nat.lt_succ_of_le h)]
  simp

namespace Machine

/-! ## The rows of R99 with a channel -/

/-- The row of SET_DOUT. -/
theorem legalWord_setDout {w : Word} (h : opField w = 0xA) :
    legalWord w = true ↔ aField w = 0 ∧ (immField w).toNat ≤ 1 := by
  simp [legalWord, h, ← BitVec.toNat_inj]

/-- The row of SET_AOUT: every immediate is legal. -/
theorem legalWord_setAout {w : Word} (h : opField w = 0xB) : legalWord w = true ↔ aField w = 0 := by
  simp [legalWord, h, ← BitVec.toNat_inj]

/-! ## Indices and saturation -/

/-- `exec_outOfRange` with the response word written out. -/
theorem exec_of_outOfRange {i : Instr} (hi : indicesInRange i = false) {s : State} (h : s.Live) :
    exec i s = .next (s.answered 0x10000000#32) :=
  exec_outOfRange h.1 h.2 hi

/-- `clamp` on a non-empty interval, by the order's own operations (R10). -/
theorem clamp_eq_max_min (v : Int) {lo hi : Int} (h : lo ≤ hi) : clamp v lo hi = max lo (min v hi) := by
  unfold clamp
  split_ifs <;> omega

/-! ## The obligations -/

/-- Settles O26: the write of SET_DOUT is `assignMask` at the channel's mask, which is one bit
(`assignMask_bitMask_getLsbD`). -/
theorem setDoutRule : Obligations.SetDoutRule := by
  refine ⟨fun ch v hch => ?_, legalExactlyWhen_of_legalWord fun _ => legalWord_setDout,
    fun _ _ => refusedOutOfSession rfl, fun ch v s h hch => ?_,
    fun ch v s h h1 h8 => ⟨assignMask s.dout (bitMask 8 (ch - 1)) v, ?_,
      assignMask_bitMask_getLsbD s.dout (ch - 1) v⟩⟩
  · rw [encodeInstr, packWord_zero_channel 0xA hch, setWidth_boolImm]
    rfl
  · have hi : indicesInRange (.setDout ch v) = false := decide_eq_false (by omega)
    exact exec_of_outOfRange hi h
  · have hi : indicesInRange (.setDout ch v) = true := decide_eq_true ⟨h1, h8⟩
    rw [exec_of_live hi h, writesOf, indexIn_eq_some h1 h8]
    rfl

/-- Settles O27: the write of SET_AOUT is `analogValue`, which is the clamped integer itself (`analogValue_toNat`). -/
theorem setAoutRule : Obligations.SetAoutRule := by
  refine ⟨fun ch v hch _ _ => ?_, legalExactlyWhen_of_legalWord fun _ => legalWord_setAout,
    fun _ _ => refusedOutOfSession rfl, fun ch v s h hch => ?_, fun c v s h => ⟨analogValue v, ?_, ?_⟩⟩
  · rw [encodeInstr, packWord_zero_channel 0xB hch, setWidth_intImm]
    rfl
  · have hi : indicesInRange (.setAout ch v) = false := decide_eq_false (by omega)
    exact exec_of_outOfRange hi h
  · have hi : indicesInRange (.setAout (c + 1) v) = true := decide_eq_true (by omega)
    rw [exec_of_live hi h, writesOf, indexIn_succ]
    rfl
  · rw [analogValue_toNat, clamp_eq_max_min v (by decide)]

end Machine

end Sys2Proof

/-! O28, O29 (44_joysticks.md): the axes and the buttons of the joysticks.

The five parts of an indexed command's rule (above O26), with two indices: the joystick stands in the field `a` of the
word, the axis or the button in `b`. -/

namespace Sys2Proof

/-- The word of a row with a joystick and a second index (R97): indices that fit their fields stand in them
unchanged. -/
theorem packWord_joystick_index (op : BitVec 4) {j n : Nat} (hj : j ≤ 15) (hn : n ≤ 255) (imm : Half) :
    packWord op (BitVec.ofNat 4 j) (BitVec.ofNat 8 n) imm =
      (op.setWidth 32 <<< 28) ||| (BitVec.ofNat 32 j <<< 24) ||| (BitVec.ofNat 32 n <<< 16) ||| imm.setWidth 32 := by
  rw [packWord, BitVec.setWidth_ofNat_of_le_of_lt (by decide) (Nat.lt_succ_of_le hj),
    BitVec.setWidth_ofNat_of_le_of_lt (by decide) (Nat.lt_succ_of_le hn)]

namespace Machine

/-! ## The rows of R99 with a joystick -/

/-- The row of SET_AXIS: every word of the opcode is legal. -/
theorem legalWord_setAxis {w : Word} (h : opField w = 0xC) : legalWord w = true := by
  simp [legalWord, h]

/-- The row of SET_BUTTON. -/
theorem legalWord_setButton {w : Word} (h : opField w = 0xD) :
    legalWord w = true ↔ (immField w).toNat ≤ 1 := by
  simp [legalWord, h]

/-! ## The obligations -/

/-- Settles O28: the write of SET_AXIS is `axisValue`, which read as two's complement is the clamped integer itself
(`axisValue_toInt`). -/
theorem setAxisRule : Obligations.SetAxisRule := by
  refine ⟨fun j k v hj hk _ _ => ?_, fun w hw => (exists_decode_iff_legalWord w).2 (legalWord_setAxis hw),
    fun _ _ _ => refusedOutOfSession rfl, fun j k v s h hjk => ?_, fun j k v s h => ⟨axisValue v, ?_, ?_⟩⟩
  · rw [encodeInstr, packWord_joystick_index 0xC hj hk, setWidth_intImm]
    rfl
  · have hi : indicesInRange (.setAxis j k v) = false := decide_eq_false (by omega)
    exact exec_of_outOfRange hi h
  · have hi : indicesInRange (.setAxis (j + 1) (k + 1) v) = true := decide_eq_true (by omega)
    rw [exec_of_live hi h, writesOf, indexIn_succ, indexIn_succ]
    rfl
  · rw [axisValue_toInt, clamp_eq_max_min v (by decide)]

/-- Settles O29: the write of SET_BUTTON is `assignMask` at the button's mask, which is one bit
(`assignMask_bitMask_getLsbD`). -/
theorem setButtonRule : Obligations.SetButtonRule := by
  refine ⟨fun j n v hj hn => ?_, legalExactlyWhen_of_legalWord fun _ => legalWord_setButton,
    fun _ _ _ => refusedOutOfSession rfl, fun j n v s h hjn => ?_,
    fun j n v s h h1 h16 => ⟨assignMask s.btn[j] (bitMask 16 (n - 1)) v, ?_,
      assignMask_bitMask_getLsbD s.btn[j] (n - 1) v⟩⟩
  · rw [encodeInstr, packWord_joystick_index 0xD hj hn, setWidth_boolImm]
    rfl
  · have hi : indicesInRange (.setButton j n v) = false := decide_eq_false (by omega)
    exact exec_of_outOfRange hi h
  · have hi : indicesInRange (.setButton (j + 1) n v) = true := decide_eq_true (by omega)
    rw [exec_of_live hi h, writesOf, indexIn_succ, indexIn_eq_some h1 h16]
    rfl

end Machine

end Sys2Proof

/-! O31, O32, O35 (45_encode.md): the 1024 bytes that an ENCODE leaves in the buffer.

In a session ENCODE completes with `encodePacket` (`exec_encode`). Below offset 1020 its buffer holds `packByte`, which
O31 reads off field by field; above, the checksum's bytes (O32). Both depend on the packed bytes alone, hence O35. -/

namespace Sys2Proof

namespace Machine

theorem exec_encode {s : State} (h : s.Live) : exec .encode s = .next ((encodePacket s).respond .ok s.index) :=
  exec_live h.1 h.2 rfl

/-! ## The packed bytes -/

/-- The high byte of R66 as a shift of the register. -/
theorem hiByte_eq_setWidth (v : Half) : hiByte v = (v >>> 8).setWidth 8 := by
  apply BitVec.eq_of_toNat_eq
  simp [hiByte, byteOf]

/-- The low byte of R66 as a truncation of the register. -/
theorem loByte_eq_setWidth (v : Half) : loByte v = v.setWidth 8 := rfl

/-- The ranges of R67 that every packet leaves zero. -/
theorem packByte_unlisted (s : State) (idx : Half) {off : Nat} (h : 48 ≤ off ∧ off ≤ 71 ∨ 80 ≤ off) :
    packByte s idx off = 0 := by
  rcases h with ⟨h48, h71⟩ | h80
  · unfold packByte
    iterate 8 rw [if_neg (by omega)]
    rw [dif_neg (by omega), dif_neg (by omega), if_pos h71]
  · exact packByte_of_ge h80

/-- The tag of R63 stands at 72..79. -/
theorem packByte_versionTag (s : State) (idx : Half) {i : Nat} (h : i < 8) :
    some (packByte s idx (72 + i)) = versionTag[i]? := by
  have hi : i < versionTag.length := h
  unfold packByte
  iterate 8 rw [if_neg (by omega)]
  rw [dif_neg (by omega), dif_neg (by omega), if_neg (by omega), if_pos (by omega), Nat.add_sub_cancel_left,
    List.getD_eq_getElem _ _ hi, List.getElem?_eq_getElem hi]

theorem packBytes_congr {s t : State} {idx idx' : Half} (hcf : s.cf = t.cf) (hdout : s.dout = t.dout)
    (haout : s.aout = t.aout) (halli : s.alli = t.alli) (hpos : s.pos = t.pos) (haxis : s.axis = t.axis)
    (hbtn : s.btn = t.btn) (hteam : s.team = t.team) (hidx : idx = idx') : packBytes s idx = packBytes t idx' := by
  subst hidx
  exact List.map_congr_left fun off _ => packByte_congr idx off hcf hdout haout halli hpos haxis hbtn hteam

/-! ## The buffer after an ENCODE -/

theorem read_encoded {s : State} {off : Nat} {b : Byte} (h : off < 1020) (hb : packByte s s.index off = b) :
    ((encodePacket s).respond .ok s.index).buf.read off = some b := by
  rw [State.respond_buf, read_encodePacket_body s h, hb]

/-- R185: byte `i` of the checksum, counted from the most significant, stands at offset `1020 + i`. -/
theorem read_storePacket_checksum (m : Memory) {body : List Byte} (h : body.length = 1020) {i : Nat} (hi : i < 4) :
    (storePacket m body).read (1020 + i) = some ((packetChecksum body).extractLsb' (8 * (3 - i)) 8) := by
  rw [read_storePacket m h, if_neg (by omega), if_pos (by omega), Nat.add_sub_cancel_left]
  rfl

/-- A packet covers the buffer: nothing of what stood in it is left. -/
theorem read_storePacket_congr (m m' : Memory) {body : List Byte} (h : body.length = 1020) {off : Nat}
    (hoff : off < 1024) : (storePacket m body).read off = (storePacket m' body).read off := by
  rw [read_storePacket m h, read_storePacket m' h, if_pos hoff, if_pos hoff]

/-! ## The obligations -/

/-- Settles O31: every offset below 1020 holds its `packByte` (`read_encoded`), which the lemmas on packing give field by
field. -/
theorem encodeWritesTheWireLayout : Obligations.EncodeWritesTheWireLayout := by
  refine fun s h => ⟨_, exec_encode h,
    read_encoded (by omega) (hiByte_eq_setWidth s.index), read_encoded (by omega) (loByte_eq_setWidth s.index),
    read_encoded (by omega) rfl, read_encoded (by omega) rfl,
    read_encoded (by omega) (hiByte_eq_setWidth s.team), read_encoded (by omega) (loByte_eq_setWidth s.team),
    read_encoded (by omega) rfl, read_encoded (by omega) rfl,
    fun j k => ?axes, fun j => ⟨?buttonsHi, ?buttonsLo⟩, fun c => ⟨?analogHi, ?analogLo⟩, fun off hoff => ?zeros, ?tag⟩
  case axes => exact read_encoded (by omega) (packByte_axis s s.index j k)
  case buttonsHi =>
    exact read_encoded (by omega) ((packByte_buttons_hi s s.index j).trans (hiByte_eq_setWidth _))
  case buttonsLo =>
    exact read_encoded (by omega) ((packByte_buttons_lo s s.index j).trans (loByte_eq_setWidth _))
  case analogHi =>
    rw [show 38 + 2 * (c.val + 1) = 40 + 2 * c.val by omega]
    exact read_encoded (by omega) ((packByte_analog_hi s s.index c).trans (hiByte_eq_setWidth _))
  case analogLo =>
    rw [show 39 + 2 * (c.val + 1) = 41 + 2 * c.val by omega]
    exact read_encoded (by omega) ((packByte_analog_lo s s.index c).trans (loByte_eq_setWidth _))
  case zeros => exact read_encoded (by omega) (packByte_unlisted s s.index (by omega))
  case tag =>
    refine Memory.readBytes_eq_some (bs := versionTag) fun i hi => ?_
    have hi8 : i < 8 := hi
    rw [← packByte_versionTag s s.index hi8]
    exact read_encoded (by omega) rfl

/-- Settles O32: the first 1020 bytes of the buffer are the packed ones (`readBytes_storePacket_body`), and their
checksum stands after them byte by byte (`read_storePacket_checksum`). -/
theorem encodeAppendsTheChecksum : Obligations.EncodeAppendsTheChecksum := by
  intro s h
  have hlen : (packBytes s s.index).length = 1020 := packBytes_length s s.index
  refine ⟨_, exec_encode h, packBytes s s.index, hlen, ?_⟩
  rw [State.respond_buf, encodePacket_buf]
  exact ⟨readBytes_storePacket_body s.buf hlen,
    read_storePacket_checksum s.buf hlen (i := 0) (by omega), read_storePacket_checksum s.buf hlen (i := 1) (by omega),
    read_storePacket_checksum s.buf hlen (i := 2) (by omega), read_storePacket_checksum s.buf hlen (i := 3) (by omega)⟩

/-- Settles O35: the buffer is a function of the packed bytes (`read_storePacket_congr`), these are one of the named
registers (`packBytes_congr`), and the index enters at offsets 0 and 1 alone (`packByte_index`). -/
theorem encodeIsDeterministic : Obligations.EncodeIsDeterministic := by
  refine ⟨fun s s' h h' hcf hdout haout halli hpos haxis hbtn hteam hidx =>
      ⟨_, _, exec_encode h, exec_encode h', fun off hoff => ?_⟩,
    fun s h => ⟨_, _, exec_encode h, exec_encode h, fun off h2 h1019 => ?_⟩⟩
  · rw [State.respond_buf, State.respond_buf, encodePacket_buf, encodePacket_buf,
      packBytes_congr hcf hdout haout halli hpos haxis hbtn hteam hidx]
    exact read_storePacket_congr _ _ (packBytes_length _ _) hoff
  · have hpack : packByte ((encodePacket s).respond .ok s.index) (nextIndex s.index) off = packByte s s.index off :=
      (packByte_congr _ off rfl rfl rfl rfl rfl rfl rfl rfl).trans (packByte_index s _ _ h2)
    exact (read_encoded (by omega) hpack).trans (read_encoded (by omega) rfl).symm

end Machine

end Sys2Proof

/-! O34 (45_encode.md R186): `INDEX` counts the packets of a session.

A command in a session completes or is answered and the session goes on (`exec_next_live`); of all commands ENCODE
alone advances `INDEX` (`exec_encode`, `exec_index`). Both parts of O34 on sequences are inductions on these facts. -/

namespace Sys2Proof

namespace Machine

/-! ## Counting modulo 65536 -/

/-- The index `n` packets after `idx` (R186). -/
def indexAfter (idx : Half) (n : Nat) : Half := idx + BitVec.ofNat 16 n

@[simp] theorem indexAfter_zero (idx : Half) : indexAfter idx 0 = idx := BitVec.add_zero idx

theorem nextIndex_indexAfter (idx : Half) (n : Nat) : nextIndex (indexAfter idx n) = indexAfter idx (n + 1) := by
  rw [nextIndex, indexAfter, indexAfter, BitVec.add_assoc, BitVec.ofNat_add]
  rfl

theorem indexAfter_nextIndex (idx : Half) (n : Nat) : indexAfter (nextIndex idx) n = indexAfter idx (n + 1) := by
  rw [nextIndex, indexAfter, indexAfter, BitVec.add_assoc, Nat.add_comm n, BitVec.ofNat_add]
  rfl

theorem indexAfter_toNat (idx : Half) (n : Nat) : (indexAfter idx n).toNat = (idx.toNat + n) % 65536 := by
  simp [indexAfter]

theorem indexAfter_eq (idx : Half) (n : Nat) : indexAfter idx n = BitVec.ofNat 16 ((idx.toNat + n) % 65536) := by
  rw [← indexAfter_toNat, BitVec.ofNat_toNat, BitVec.setWidth_eq]

/-- The index as response data (R102). -/
theorem responseWord_indexAfter (idx : Half) (n : Nat) :
    responseWord .ok (indexAfter idx n) = BitVec.ofNat 32 ((idx.toNat + n) % 65536) := by
  rw [responseWord_ok, ← indexAfter_toNat, BitVec.ofNat_toNat]

theorem hiByte_indexAfter (idx : Half) (n : Nat) :
    hiByte (indexAfter idx n) = BitVec.ofNat 8 ((idx.toNat + n) % 65536 / 256) := by
  rw [hiByte, indexAfter_toNat, Nat.shiftRight_eq_div_pow]
  rfl

theorem loByte_indexAfter (idx : Half) (n : Nat) :
    loByte (indexAfter idx n) = BitVec.ofNat 8 ((idx.toNat + n) % 65536 % 256) := by
  rw [loByte, indexAfter_toNat, byteOf]
  apply BitVec.eq_of_toNat_eq
  simp

/-! ## One command -/

/-- The column `written by` of R20 for `INDEX`: INIT and ENCODE alone. -/
theorem writesOf_index {i : Instr} (he : i ≠ .encode) (hi : isInit i = false) (s : State) :
    (writesOf i s).index = s.index := by
  cases i with
  | init team => cases hi
  | encode => exact absurd rfl he
  | setDout | setAout | setAxis | setButton => simp only [writesOf]; split <;> rfl
  | _ => rfl

theorem exec_index {i : Instr} (he : i ≠ .encode) (hi : isInit i = false) {s t : State} (h : exec i s = .next t) :
    t.index = s.index := by
  rcases exec_cases h with ⟨st, -, rfl⟩ | ⟨-, -, -, rfl⟩
  · rfl
  · exact writesOf_index he hi s

/-- No command ends a session (R32): it completes or, with an index out of range, is answered. -/
theorem exec_next_live {s : State} (h : s.Live) (i : Instr) : ∃ t, exec i s = .next t ∧ t.Live := by
  obtain ⟨hf, hs⟩ := h
  cases hr : indicesInRange i with
  | false => exact ⟨_, exec_outOfRange hf hs hr, hf, hs⟩
  | true => exact ⟨_, exec_live hf hs hr, (writesOf_fatal i s).trans hf, writesOf_session (.inl hs)⟩

/-- An ENCODE out of a session is answered with a fault, which writes nothing. -/
theorem exec_encode_of_not_live {s : State} (h : ¬ s.Live) :
    ∃ t, exec .encode s = .next t ∧ t.index = s.index := by
  cases hf : s.fatal with
  | true => exact ⟨_, exec_fatal hf .encode, rfl⟩
  | false =>
    cases hs : s.session with
    | true => exact absurd ⟨hf, hs⟩ h
    | false => exact ⟨_, exec_noSession hf hs rfl, rfl⟩

/-! ## Sequences of commands -/

theorem execAll_cons {i : Instr} {s t : State} (h : exec i s = .next t) (is : List Instr) :
    execAll (i :: is) s = execAll is t := by
  rw [execAll, h]

theorem execAll_append {is : List Instr} {s t : State} (h : execAll is s = .next t) (js : List Instr) :
    execAll (is ++ js) s = execAll js t := by
  induction is generalizing s with
  | nil =>
    injection h with h
    rw [List.nil_append, h]
  | cons i is ih =>
    rw [execAll] at h
    split at h
    · next u hu => rw [List.cons_append, execAll_cons hu, ih h]
    · cases h
    · cases h

/-- Whatever stands between them, the ENCODEs of a session are counted. -/
theorem execAll_index {cs : List Instr} (hcs : ∀ c ∈ cs, isInit c = false) {s : State} (h : s.Live) :
    ∃ t, execAll cs s = .next t ∧ t.index = indexAfter s.index (cs.count .encode) := by
  induction cs generalizing s with
  | nil => exact ⟨s, rfl, (indexAfter_zero s.index).symm⟩
  | cons c cs ih =>
    obtain ⟨hc, hcs⟩ := List.forall_mem_cons.1 hcs
    obtain ⟨t, ht, hlive⟩ := exec_next_live h c
    obtain ⟨u, hu, hidx⟩ := ih hcs hlive
    refine ⟨u, (execAll_cons ht cs).trans hu, ?_⟩
    by_cases he : c = .encode
    · subst he
      rw [exec_encode h] at ht
      injection ht with ht
      rw [hidx, ← ht, State.respond_index, encodePacket_index, indexAfter_nextIndex, List.count_cons_self]
    · rw [hidx, exec_index he hc ht, List.count_cons_of_ne he]

/-- What `n` ENCODEs in a row, started in `s`, have led to (R186). -/
structure AfterEncodes (s : State) (n : Nat) (t : State) : Prop where
  live : t.Live
  index : t.index = indexAfter s.index n
  responses : t.responses = s.responses ++ (List.range n).map fun k => responseWord .ok (indexAfter s.index k)
  lastPacket : ∀ k, n = k + 1 → t.buf.read 0 = some (hiByte (indexAfter s.index k)) ∧
    t.buf.read 1 = some (loByte (indexAfter s.index k))

theorem AfterEncodes.zero {s : State} (h : s.Live) : AfterEncodes s 0 s where
  live := h
  index := (indexAfter_zero s.index).symm
  responses := (List.append_nil _).symm
  lastPacket := fun _ hk => by omega

theorem AfterEncodes.succ {s t : State} {n : Nat} (h : AfterEncodes s n t) :
    AfterEncodes s (n + 1) ((encodePacket t).respond .ok t.index) where
  live := h.live
  index := by rw [State.respond_index, encodePacket_index, h.index, nextIndex_indexAfter]
  responses := by
    rw [State.respond_responses, encodePacket_responses, h.responses, h.index, List.range_succ, List.map_append,
      List.append_assoc]
    rfl
  lastPacket := fun k hk => by
    obtain rfl : n = k := by omega
    rw [← h.index]
    exact ⟨read_encoded (by omega) rfl, read_encoded (by omega) rfl⟩

theorem execAll_encodes {s : State} (h : s.Live) (n : Nat) :
    ∃ t, execAll (List.replicate n .encode) s = .next t ∧ AfterEncodes s n t := by
  induction n with
  | zero => exact ⟨s, rfl, .zero h⟩
  | succ n ih =>
    obtain ⟨t, ht, hafter⟩ := ih
    refine ⟨_, ?_, hafter.succ⟩
    rw [List.replicate_succ', execAll_append ht, execAll_cons (exec_encode hafter.live), execAll]

/-! ## The obligation -/

/-- Settles O34: `execAll_encodes` for ENCODEs in a row, `execAll_index` from the fresh session on for any commands
without INIT, and `exec_encode_of_not_live` and `exec_index` for one command. -/
theorem indexCountsPackets : Obligations.IndexCountsPackets := by
  refine ⟨fun n s h => ?inARow, fun cs team s hf hcs => ?afterInit, fun s h => exec_encode_of_not_live h,
    fun i s t he h => ?others⟩
  case inARow =>
    obtain ⟨t, ht, hlive, hidx, hresp, hlast⟩ := execAll_encodes h n
    simp only [indexAfter_eq] at hidx
    simp only [responseWord_indexAfter] at hresp
    simp only [hiByte_indexAfter, loByte_indexAfter] at hlast
    exact ⟨t, ht, hlive, hidx, hresp, hlast⟩
  case afterInit =>
    have hlive : ((freshSession team s).respond .ok 0).Live := ⟨hf, rfl⟩
    obtain ⟨t, ht, hidx⟩ := execAll_index hcs hlive
    refine ⟨t, (execAll_cons (exec_init hf team) cs).trans ht, ?_⟩
    have hzero : ((freshSession team s).respond .ok 0).index.toNat = 0 := rfl
    rw [hidx, indexAfter_eq, hzero, Nat.zero_add]
  case others =>
    cases hi : isInit i with
    | false => exact .inl (exec_index he hi h)
    | true =>
      obtain ⟨team, rfl⟩ := eq_init_of_isInit hi
      rcases exec_cases h with ⟨st, -, rfl⟩ | ⟨-, -, -, rfl⟩
      · exact .inl rfl
      · exact .inr ⟨rfl, rfl⟩

end Machine

end Sys2Proof

/-! O9, O12, O13, O14 (60_exceptions.md): which words and commands are answered with a fault, and with which.

The tests of R103 leave a command whose indices are in range two faults, neither of them `OutOfRange`
(`exec_cases_of_indicesInRange`). So in a session `OutOfRange` is the answer exactly on the indices of R211's table
(`exec_eq_outOfRange_iff`), and every other command completes. -/

namespace Sys2Proof

namespace Machine

/-! ## Words outside the table of R99 (R213) -/

/-- A word outside the table does not decode, and the fatal state does not ask whether it does. -/
theorem acceptCommand_of_illegal {w : Word} (hw : legalWord w = false) (s : State) :
    acceptCommand w s = .next (s.answered (if s.fatal then 0x20000000#32 else 0x30000000#32)) := by
  split_ifs with hf
  · exact acceptCommand_fatal hf w
  · exact acceptCommand_of_not_legalWord (ne_true_of_eq_false hw) (eq_false_of_ne_true hf)

/-! ## `OutOfRange` (R211) -/

/-- What is left of R103 for a command whose indices are in range: steps 1 and 3, and completion. -/
theorem exec_cases_of_indicesInRange {i : Instr} (hi : indicesInRange i = true) (s : State) :
    (∃ st, (st = .invariantViolation ∨ st = .noSession) ∧ exec i s = .next (s.respond st 0)) ∨
    exec i s = .next ((writesOf i s).respond .ok (dataOf i s)) := by
  cases hf : s.fatal with
  | true => exact .inl ⟨.invariantViolation, .inl rfl, exec_fatal hf i⟩
  | false =>
    by_cases hs : s.session = true ∨ isInit i = true
    · exact .inr (exec_completes hf hs hi)
    · obtain ⟨hsession, hinit⟩ := not_or.1 hs
      exact .inl ⟨.noSession, .inr rfl, exec_noSession hf (eq_false_of_ne_true hsession) (eq_false_of_ne_true hinit)⟩

/-- The status field tells a response of another status from that of `OutOfRange`. -/
theorem responseWord_ne_outOfRange {st : Status} (h : st ≠ .outOfRange) (d : Half) :
    responseWord st d ≠ 0x10000000#32 := by
  intro hw
  have hcode : st.code = 0x1 := by rw [← responseWord_status st d, hw]; rfl
  cases st with
  | outOfRange => exact h rfl
  | _ => exact absurd hcode (by decide)

/-- In any state: fatal, without a session or in one. -/
theorem exec_responses_ne_outOfRange {i : Instr} (hi : indicesInRange i = true) {s t : State}
    (h : exec i s = .next t) : t.responses ≠ s.responses ++ [0x10000000#32] := by
  have hadded : ∃ st d, st ≠ Status.outOfRange ∧ t.responses = s.responses ++ [responseWord st d] := by
    rcases exec_cases_of_indicesInRange hi s with ⟨st, hst, hexec⟩ | hexec <;>
      obtain rfl := Host.Outcome.next.inj (h.symm.trans hexec)
    · exact ⟨st, 0, by rcases hst with rfl | rfl <;> decide, rfl⟩
    · exact ⟨.ok, dataOf i s, by decide, by rw [State.respond_responses, writesOf_responses]⟩
  obtain ⟨st, d, hst, ht⟩ := hadded
  rw [ht]
  exact fun heq => responseWord_ne_outOfRange hst d (List.singleton_inj.1 (List.append_cancel_left heq))

/-- In a session the answer `OutOfRange`, with nothing else changed, is the index test of R211. -/
theorem exec_eq_outOfRange_iff {s : State} (h : s.Live) (i : Instr) :
    exec i s = .next (s.answered 0x10000000#32) ↔ indicesInRange i = false := by
  refine ⟨fun hexec => ?_, fun hi => exec_of_outOfRange hi h⟩
  by_contra hi
  exact exec_responses_ne_outOfRange (eq_true_of_ne_false hi) hexec rfl

/-! ## The obligations -/

/-- Settles O9: `acceptCommand_of_illegal` on the state without the input taken. -/
theorem illegalWordsAreRejected : Obligations.IllegalWordsAreRejected := by
  intro s w rest h hw
  rw [step_command h]
  exact acceptCommand_of_illegal hw { s with inputs := rest }

/-- Settles O12: the second refusal of every command but INIT (`refusedOutOfSession`). -/
theorem noSessionRefusesAllButInit : Obligations.NoSessionRefusesAllButInit :=
  fun _ s hi hf hs => (refusedOutOfSession hi).2 s hf hs

/-- Settles O13: each row of the table is the negation of that command's index domains (`exec_eq_outOfRange_iff`). -/
theorem outOfRangeIndicesAreRejected : Obligations.OutOfRangeIndicesAreRejected := by
  refine ⟨fun s ch v h => ?dout, fun s ch v h => ?aout, fun s j k v h => ?axis, fun s j n v h => ?button,
    fun i s t hi h => exec_responses_ne_outOfRange hi h⟩
  case dout | aout | axis | button =>
    rw [exec_eq_outOfRange_iff h, indicesInRange, decide_eq_false_iff_not]
    omega

/-- Settles O14: in a session a command with its indices in range completes (`exec_live`), and completion neither sets
`FATAL` nor ends the session. -/
theorem everyCommandCompletesInSession : Obligations.EveryCommandCompletesInSession := by
  intro i s ⟨hf, hs⟩ hi
  refine ⟨_, responseWord .ok (dataOf i s), exec_live hf hs hi, ?responses, responseWord_status .ok _, ?fatal, ?session⟩
  case responses => rw [State.respond_responses, writesOf_responses]
  case fatal => rw [State.respond_fatal, writesOf_fatal, hf]
  case session => rw [State.respond_session, writesOf_session (.inl hs)]

end Machine

end Sys2Proof

/-! O1, O2, O4, O5 (30_encoding.md): command words and commands are one to one, and the assembler writes those words.

The fields of a packed word read back (`Laws/Encoding`), so a row of R97 recovers its operands from its own word. The
words of the assembler's lines are those that the rules of the commands state (O17 to O29); what is left of O5 is the
range test of each operand. -/

namespace Sys2Proof

theorem decode_packWord (op a : BitVec 4) (b : Byte) (imm : Half) :
    decode (packWord op a b imm) = decodeFields op a b imm := by
  rw [decode, opField_packWord, aField_packWord, bField_packWord, immField_packWord]

/-- R97 read forwards, row by row: the unused fields are zero, each immediate is in its kind (`Laws/Encoding`), and an
index that fits its field is the residue kept there. -/
theorem decode_encodeInstr {i : Instr} (h : i.wellFormed = true) : decode (encodeInstr i) = .ok i := by
  have ha {j : Nat} (hj : fitsA j = true) : j % 16 = j := Nat.mod_eq_of_lt (Nat.lt_succ_of_le (of_decide_eq_true hj))
  have hb {n : Nat} (hn : fitsB n = true) : n % 256 = n := Nat.mod_eq_of_lt (Nat.lt_succ_of_le (of_decide_eq_true hn))
  cases i with
  | setPosition | setDout | setAout | setAxis | setButton =>
    simp only [Instr.wellFormed, Bool.and_eq_true] at h
    simp [encodeInstr, decode_packWord, decodeFields, requireUnused, requireKind, readInt_intImm, ha, hb, h]
  | _ => simp [encodeInstr, decode_packWord, decodeFields, requireUnused, requireKind]

namespace Machine

/-! ## The operands of a line (R105) -/

variable {α : Type}

theorem assemble_eq {m : String} {op : BitVec 4} (h : mnemonicOpcode m = some op) (args : List AsmOperand) :
    assemble m args = (asmCommand op args).map encodeInstr := by
  rw [assemble, h, Option.bind_some]

theorem asmNat_bind (top : Nat) (v : Int) (f : Nat → Option α) :
    (asmNat top (.int v)).bind f = if 0 ≤ v ∧ v ≤ top then f v.toNat else none := by
  rw [asmNat]
  split_ifs <;> rfl

theorem asmInt_map (v : Int) (f : Int → α) :
    (asmInt (.int v)).map f = if -32768 ≤ v ∧ v ≤ 32767 then some (f v) else none := by
  simp [asmInt, fitsInt]

/-- A boolean operand that is none of 0 and 1 is an error. -/
theorem asmBool_map (v : Int) (f : Bool → α) :
    (asmBool (.int v)).map f = if v = 0 ∨ v = 1 then some (f (decide (v = 1))) else none := by
  by_cases h0 : v = 0
  · subst h0
    rfl
  · by_cases h1 : v = 1
    · subst h1
      rfl
    · rw [asmBool, if_neg h0, if_neg h1, if_neg (by omega), Option.map_none]

/-- An operand in its range has one word, read as a natural number or as an integer. -/
theorem ofNat_toNat_eq_ofInt {v : Int} (h : 0 ≤ v) : BitVec.ofNat 32 v.toNat = BitVec.ofInt 32 v := by
  rw [← BitVec.ofInt_natCast, Int.toNat_of_nonneg h]

theorem ite_decide_eq_ofInt {v : Int} (h : v = 0 ∨ v = 1) :
    (if decide (v = 1) = true then 1 else 0) = BitVec.ofInt 32 v := by
  rcases h with rfl | rfl <;> rfl

/-! ## The lines with operands -/

theorem assemble_init (t : Int) : assemble "init" [.int t] =
    if 0 ≤ t ∧ t ≤ 65535 then some (0x10000000#32 ||| BitVec.ofInt 32 t) else none := by
  rw [assemble_eq (op := 0x1) rfl]
  simp only [asmCommand, asmNat, BitVec.reduceToNat, Nat.cast_ofNat]
  split_ifs with h
  · have hn : t.toNat < 65536 := by omega
    rw [Option.map_some, Option.map_some, initRule.1, BitVec.setWidth_ofNat_of_le_of_lt (by decide) hn,
      ofNat_toNat_eq_ofInt h.1]
  · rfl

theorem assemble_setMode (x : String) : assemble "set_mode" [.name x] =
    if x = "teleop" then some 0x60000000#32
    else if x = "autonomous" then some 0x60000001#32
    else if x = "test" then some 0x60000002#32
    else none := by
  rw [assemble_eq (op := 0x6) rfl]
  simp only [asmCommand, BitVec.reduceToNat, asmMode]
  split_ifs <;> rfl

theorem assemble_setAlliance (x : String) : assemble "set_alliance" [.name x] =
    if x = "red" then some 0x80000000#32 else if x = "blue" then some 0x80000001#32 else none := by
  rw [assemble_eq (op := 0x8) rfl]
  simp only [asmCommand, BitVec.reduceToNat, asmAlliance]
  split_ifs <;> rfl

theorem assemble_setEstop (v : Int) : assemble "set_estop" [.int v] =
    if v = 0 ∨ v = 1 then some (0x20000000#32 ||| BitVec.ofInt 32 v) else none := by
  rw [assemble_eq (op := 0x2) rfl]
  simp only [asmCommand, BitVec.reduceToNat, asmBool_map]
  split_ifs with h
  · rw [Option.map_some, setEstopRule.1, ite_decide_eq_ofInt h]
  · rfl

theorem assemble_setEnabled (v : Int) : assemble "set_enabled" [.int v] =
    if v = 0 ∨ v = 1 then some (0x40000000#32 ||| BitVec.ofInt 32 v) else none := by
  rw [assemble_eq (op := 0x4) rfl]
  simp only [asmCommand, BitVec.reduceToNat, asmBool_map]
  split_ifs with h
  · rw [Option.map_some, setEnabledRule.1, ite_decide_eq_ofInt h]
  · rfl

theorem assemble_setPosition (p : Int) : assemble "set_position" [.int p] =
    if -32768 ≤ p ∧ p ≤ 32767 then some (0x90000000#32 ||| BitVec.ofInt 32 (p % 65536)) else none := by
  rw [assemble_eq (op := 0x9) rfl]
  simp only [asmCommand, BitVec.reduceToNat, asmInt_map]
  split_ifs with h
  · rw [Option.map_some, setPositionRule.1 p h.1 h.2]
  · rfl

theorem assemble_setDout (ch v : Int) : assemble "set_dout" [.int ch, .int v] =
    if (0 ≤ ch ∧ ch ≤ 255) ∧ (v = 0 ∨ v = 1)
    then some (0xA0000000#32 ||| (BitVec.ofInt 32 ch <<< 16) ||| BitVec.ofInt 32 v) else none := by
  rw [assemble_eq (op := 0xA) rfl, ite_and (P := 0 ≤ ch ∧ ch ≤ 255)]
  simp only [asmCommand, asmNat_bind, asmBool_map, BitVec.reduceToNat, Nat.cast_ofNat]
  split_ifs with hch hv
  · rw [Option.map_some, setDoutRule.1 _ _ (by omega), ofNat_toNat_eq_ofInt hch.1, ite_decide_eq_ofInt hv]
  all_goals rfl

theorem assemble_setAout (ch v : Int) : assemble "set_aout" [.int ch, .int v] =
    if (0 ≤ ch ∧ ch ≤ 255) ∧ -32768 ≤ v ∧ v ≤ 32767
    then some (0xB0000000#32 ||| (BitVec.ofInt 32 ch <<< 16) ||| BitVec.ofInt 32 (v % 65536)) else none := by
  rw [assemble_eq (op := 0xB) rfl, ite_and (P := 0 ≤ ch ∧ ch ≤ 255)]
  simp only [asmCommand, asmNat_bind, asmInt_map, BitVec.reduceToNat, Nat.cast_ofNat]
  split_ifs with hch hv
  · rw [Option.map_some, setAoutRule.1 _ _ (by omega) hv.1 hv.2, ofNat_toNat_eq_ofInt hch.1]
  all_goals rfl

theorem assemble_setAxis (j k v : Int) : assemble "set_axis" [.int j, .int k, .int v] =
    if (0 ≤ j ∧ j ≤ 15) ∧ (0 ≤ k ∧ k ≤ 255) ∧ -32768 ≤ v ∧ v ≤ 32767
    then some (0xC0000000#32 ||| (BitVec.ofInt 32 j <<< 24) ||| (BitVec.ofInt 32 k <<< 16) |||
      BitVec.ofInt 32 (v % 65536)) else none := by
  rw [assemble_eq (op := 0xC) rfl, ite_and (P := 0 ≤ j ∧ j ≤ 15), ite_and (P := 0 ≤ k ∧ k ≤ 255)]
  simp only [asmCommand, asmNat_bind, asmInt_map, BitVec.reduceToNat, Nat.cast_ofNat]
  split_ifs with hj hk hv
  · rw [Option.map_some, setAxisRule.1 _ _ _ (by omega) (by omega) hv.1 hv.2, ofNat_toNat_eq_ofInt hj.1,
      ofNat_toNat_eq_ofInt hk.1]
  all_goals rfl

theorem assemble_setButton (j n v : Int) : assemble "set_button" [.int j, .int n, .int v] =
    if (0 ≤ j ∧ j ≤ 15) ∧ (0 ≤ n ∧ n ≤ 255) ∧ (v = 0 ∨ v = 1)
    then some (0xD0000000#32 ||| (BitVec.ofInt 32 j <<< 24) ||| (BitVec.ofInt 32 n <<< 16) ||| BitVec.ofInt 32 v)
    else none := by
  rw [assemble_eq (op := 0xD) rfl, ite_and (P := 0 ≤ j ∧ j ≤ 15), ite_and (P := 0 ≤ n ∧ n ≤ 255)]
  simp only [asmCommand, asmNat_bind, asmBool_map, BitVec.reduceToNat, Nat.cast_ofNat]
  split_ifs with hj hn hv
  · rw [Option.map_some, setButtonRule.1 _ _ _ (by omega) (by omega), ofNat_toNat_eq_ofInt hj.1,
      ofNat_toNat_eq_ofInt hn.1, ite_decide_eq_ofInt hv]
  all_goals rfl

/-! ## The obligations -/

/-- Settles O1, by the rows of R97 (`decode_encodeInstr`). -/
theorem decodeOfEncodedCommand : Obligations.DecodeOfEncodedCommand := fun _ => decode_encodeInstr

/-- Settles O2, by the rows of R97 read backwards (`wellFormed_encodeInstr_of_decode`). -/
theorem encodeOfDecodedWord : Obligations.EncodeOfDecodedWord := fun _ _ => wellFormed_encodeInstr_of_decode

/-- Settles O4: the decoder evaluated on each word. -/
theorem knownWordsDecode : Obligations.KnownWordsDecode := by
  unfold Obligations.KnownWordsDecode
  decide

/-- Settles O5, line by line; the lines without operands are evaluated. -/
theorem assemblerLinesGiveTheirWords : Obligations.AssemblerLinesGiveTheirWords :=
  ⟨assemble_init, assemble_setEstop, rfl, assemble_setEnabled, rfl, assemble_setMode, rfl, assemble_setAlliance,
    assemble_setPosition, assemble_setDout, assemble_setAout, assemble_setAxis, assemble_setButton, rfl, rfl⟩

end Machine
end Sys2Proof

/-! O6, O10, O11, O15, O16 (60_exceptions.md, 20_memory.md): one step, and where it stops.

A step takes one input: a command word always gives a next state (`step_command_next`), so only a read of the transport
can stop. What every step keeps is reduced once, in `Kept.step`, to the ports' data and the writes of a command that
completes. -/

namespace Sys2Proof

namespace Machine

/-! ## What a step keeps -/

/-- The state with other data at its ports: what an input taken and a response or a byte given change (R42). -/
def State.withPorts (s : State) (inputs : List Input) (responses : List Word) (readData : List Byte) : State :=
  { s with inputs := inputs, responses := responses, readData := readData }

/-- What a predicate on states must survive to be kept by every step: other data at the ports, and the writes of a
command that completes. -/
structure Kept (P : State → Prop) : Prop where
  withPorts : ∀ {s : State} (is : List Input) (rs : List Word) (ds : List Byte), P s → P (s.withPorts is rs ds)
  writesOf : ∀ {i : Instr} {s : State}, s.fatal = false → s.session = true ∨ isInit i = true → P s → P (writesOf i s)

theorem Kept.exec {P : State → Prop} (hP : Kept P) {i : Instr} {s t : State} (h : exec i s = .next t) (hs : P s) :
    P t := by
  rcases exec_cases h with ⟨st, -, rfl⟩ | ⟨hf, hsession, -, rfl⟩
  · exact hP.withPorts s.inputs (s.responses ++ [responseWord st 0]) s.readData hs
  · exact hP.withPorts _ _ _ (hP.writesOf hf hsession hs)

theorem Kept.step {P : State → Prop} (hP : Kept P) {s t : State} (h : step s = .next t) (hs : P s) : P t := by
  rcases step_cases h with ⟨-, rfl⟩ | ⟨w, rest, i, -, -, hexec⟩ | ⟨w, rest, e, st, -, -, -, rfl⟩ |
    ⟨off, rest, b, -, -, -, rfl⟩
  · exact hs
  · exact hP.exec hexec (hP.withPorts rest s.responses s.readData hs)
  · exact hP.withPorts _ _ _ hs
  · exact hP.withPorts _ _ _ hs

/-- No step enters or leaves the fatal state (logs 9, 11). -/
theorem kept_fatal (f : Bool) : Kept fun s => s.fatal = f where
  withPorts _ _ _ h := h
  writesOf _ _ h := (writesOf_fatal _ _).trans h

/-! ## Where a step stops -/

theorem transportRead_of_read {s : State} {off : BitVec 10} {b : Byte} (hv : s.bufValid = true)
    (hb : s.buf.read off.toNat = some b) :
    transportRead off s = .next { s with readData := s.readData ++ [b] } := by
  rw [transportRead, if_pos hv, hb]

theorem transportRead_of_invalid {s : State} (hv : s.bufValid = false) (off : BitVec 10) :
    transportRead off s = .refused .bufferNotValid := by
  rw [transportRead, hv]
  rfl

/-- Of a valid buffer every read gives a byte or meets an unwritten one; a complete packet has none unwritten. -/
theorem transportRead_ne_fault {s : State} (hbuf : s.BufferInvariant) (off : BitVec 10) (f : Fault) :
    transportRead off s ≠ .fault f := by
  cases hv : s.bufValid with
  | false => simp [transportRead_of_invalid hv]
  | true =>
    obtain ⟨-, hall, -⟩ := hbuf hv
    obtain ⟨b, hb⟩ := Option.isSome_iff_exists.1 (hall off.toNat off.isLt)
    simp [transportRead_of_read hv hb]

theorem transportRead_eq_refused_iff (off : BitVec 10) (s : State) (r : Refusal) :
    transportRead off s = .refused r ↔ r = .bufferNotValid ∧ s.bufValid = false := by
  cases hv : s.bufValid with
  | false => simp [transportRead_of_invalid hv, eq_comm]
  | true =>
    rw [transportRead, if_pos hv]
    split <;> simp

/-- A command word, legal or not, is never a reason to stop. -/
theorem step_command_next {s : State} {w : Word} {rest : List Input} (h : s.inputs = .command w :: rest) :
    ∃ t, step s = .next t := by
  rw [step_command h]
  rcases acceptCommand_cases w { s with inputs := rest } with ⟨st, -, -, hnext⟩ | ⟨-, i, -, hexec, hnext⟩
  · exact ⟨_, hnext⟩
  · exact ⟨_, hexec.trans hnext⟩

theorem step_nil {s : State} (h : s.inputs = []) : step s = .next s := by
  rw [step, h]

/-! ## The obligations -/

/-- Settles O6: such a step is `acceptCommand`, and a well-formed command's word decodes to it (O1). -/
theorem stepRunsTheDecodedCommand : Obligations.StepRunsTheDecodedCommand := by
  have hstep : ∀ (s : State) (w : Word) (rest : List Input) (i : Instr), s.inputs = .command w :: rest →
      decode w = .ok i → step s = exec i { s with inputs := rest } := fun s w rest i h hd => by
    rw [step_command h, acceptCommand_ok hd]
  exact ⟨hstep, fun s rest i h hi => hstep s _ rest i h (decode_encodeInstr hi)⟩

/-- Settles O10: the first test of R103 (`acceptCommand_fatal`), and `FATAL` is kept (`kept_fatal`). -/
theorem fatalStateRefusesEveryWord : Obligations.FatalStateRefusesEveryWord := by
  refine ⟨fun s w rest h hf => ?_, fun s t h => (kept_fatal s.fatal).step h rfl⟩
  have hf : ({ s with inputs := rest } : State).fatal = true := hf
  rw [step_command h, acceptCommand_fatal hf]
  rfl

/-- Settles O11: R212 is `raiseInvariantViolation_eq`. -/
theorem invariantViolationSetsFatalOnly : Obligations.InvariantViolationSetsFatalOnly := raiseInvariantViolation_eq

/-- Settles O15: nothing waiting, a command word, or a read; only the read can stop, and not in a complete packet. -/
theorem stepStopsOnlyAtAnInvalidBuffer : Obligations.StepStopsOnlyAtAnInvalidBuffer := by
  refine ⟨fun s h => step_nil h, fun s f hbuf => ?fault, fun s r => ?refused⟩ <;>
    rcases hin : s.inputs with _ | ⟨w | off, rest⟩
  case fault.nil => simp [step_nil hin]
  case fault.cons.command =>
    obtain ⟨t, ht⟩ := step_command_next hin
    simp [ht]
  case fault.cons.readByte =>
    rw [step_readByte hin]
    exact transportRead_ne_fault (s := { s with inputs := rest }) hbuf off f
  case refused.nil => simp [step_nil hin]
  case refused.cons.command =>
    obtain ⟨t, ht⟩ := step_command_next hin
    simp [ht]
  case refused.cons.readByte =>
    rw [step_readByte hin, transportRead_eq_refused_iff]
    simp

/-- Settles O16: a read changes neither the buffer nor `BUF_VALID`, so the second one meets the same byte. -/
theorem transportReadGivesTheByte : Obligations.TransportReadGivesTheByte := by
  have hread : ∀ (s : State) (off : BitVec 10) (rest : List Input) (b : Byte), s.inputs = .readByte off :: rest →
      s.bufValid = true → s.buf.read off.toNat = some b →
      step s = .next { s with inputs := rest, readData := s.readData ++ [b] } := fun s off rest b h hv hb => by
    rw [step_readByte h]
    exact transportRead_of_read (s := { s with inputs := rest }) hv hb
  refine ⟨hread, fun s off rest b h hv hb => ⟨_, hread s off _ b h hv hb, ?_⟩⟩
  simpa using hread { s with inputs := .readByte off :: rest, readData := s.readData ++ [b] } off rest b rfl hv hb

end Machine

end Sys2Proof

/-! O41, O42, O43, O46 (10_state.md, 70_reset_and_hazards.md): what each command writes.

INIT and ENCODE apart, a command writes at most one of seven registers, as a function of that register, the parameters
and its operands (`writesOf_cases`). So what a command leaves alone, and how two commands or one command twice act on
each other, are questions about one register at a time. -/

namespace Sys2Proof

namespace Machine

/-! ## Overwriting the bits of a mask -/

/-- A field with the bits of a mask taken from another value: the form of every write to a bit field. -/
def overwrite {w : Nat} (field mask bits : BitVec w) : BitVec w := field &&& ~~~mask ||| bits &&& mask

section
variable {w : Nat} (f b c : BitVec w) {m n : BitVec w}

theorem getElem_of_disjoint (h : m &&& n = 0) {i : Nat} (hi : i < w) : m[i] = false ∨ n[i] = false := by
  rw [← Bool.and_eq_false_iff, ← BitVec.getElem_and, h]
  exact BitVec.getElem_zero hi

theorem assignMask_eq_overwrite (m : BitVec w) (v : Bool) :
    assignMask f m v = overwrite f m (if v then m else 0) := by
  unfold assignMask overwrite
  ext i hi
  cases v <;> cases hf : f[i] <;> simp [hf]

@[simp] theorem overwrite_zero : overwrite f 0#w b = f := by simp [overwrite]

theorem overwrite_overwrite_same (m : BitVec w) : overwrite (overwrite f m b) m b = overwrite f m b := by
  unfold overwrite
  ext i hi
  cases hm : m[i] <;> simp [hm]

theorem overwrite_comm (h : m &&& n = 0) :
    overwrite (overwrite f m b) n c = overwrite (overwrite f n c) m b := by
  unfold overwrite
  ext i hi
  rcases getElem_of_disjoint h hi with h | h <;> simp [h]

theorem overwrite_and_of_disjoint (h : m &&& n = 0) : overwrite f m b &&& n = f &&& n := by
  unfold overwrite
  ext i hi
  rcases getElem_of_disjoint h hi with h | h <;> simp [h]

theorem overwrite_and_of_subset (h : m &&& n = n) : overwrite f m b &&& n = b &&& n := by
  rw [← h]
  unfold overwrite
  ext i hi
  cases hm : m[i] <;> simp [hm]

theorem bitMask_disjoint {p q : Nat} (h : p ≠ q) : bitMask w p &&& bitMask w q = 0 := by
  apply BitVec.eq_of_getLsbD_eq
  intro i hi
  rw [BitVec.getLsbD_and, bitMask_getLsbD, bitMask_getLsbD]
  by_cases hp : i = p <;> simp [hp, h]

end

/-! ## The control byte -/

/-- The bits of a mode (R23). -/
def modeBits (c : Config) : Mode → Byte
  | .teleop => 0
  | .autonomous => c.autoMask
  | .test => c.testMask

theorem writeMode_eq_overwrite (c : Config) (cf : Byte) (m : Mode) :
    writeMode c cf m = overwrite cf (c.autoMask ||| c.testMask) (modeBits c m) := by
  unfold writeMode overwrite
  ext i hi
  cases m <;> cases ha : c.autoMask[i] <;> simp [modeBits, ha]

/-- The bits of `CF` that a command writes. -/
def cfMask (c : Config) : Instr → Byte
  | .setEstop _ => c.estopMask
  | .setEnabled _ => c.enabledMask
  | .setMode _ => c.autoMask ||| c.testMask
  | _ => 0#8

/-- What it writes there. -/
def cfBits (c : Config) : Instr → Byte
  | .setEstop v => if v then c.estopMask else 0
  | .setEnabled v => if v then c.enabledMask else 0
  | .setMode m => modeBits c m
  | _ => 0

def cfAfter (i : Instr) (c : Config) (cf : Byte) : Byte := overwrite cf (cfMask c i) (cfBits c i)

/-! ## Writes at an index -/

/-- One entry of a register changed; no index, no change. -/
def updateAt {α : Type} {n : Nat} (o : Option (Fin n)) (f : α → α) (v : Vector α n) : Vector α n :=
  match o with
  | none => v
  | some c => v.set c (f v[c])

/-- One bit of a register set or cleared; no index, no change. -/
def updateBit {w : Nat} (o : Option (Fin w)) (v : Bool) (x : BitVec w) : BitVec w :=
  match o with
  | none => x
  | some c => assignMask x (bitMask w c) v

section
variable {α : Type} {n : Nat} {f g : α → α} {o o' : Option (Fin n)}

@[simp] theorem updateAt_id (o : Option (Fin n)) (v : Vector α n) : updateAt o (fun x => x) v = v := by
  cases o with
  | none => rfl
  | some c => exact Vector.set_getElem_self ..

theorem updateAt_getElem (o : Option (Fin n)) (f : α → α) (v : Vector α n) (c : Fin n) :
    (updateAt o f v)[c] = if o = some c then f v[c] else v[c] := by
  cases o with
  | none => rfl
  | some d => by_cases h : d = c <;> simp [updateAt, h, Fin.val_inj]

theorem updateAt_idem (hf : ∀ x, f (f x) = f x) (o : Option (Fin n)) (v : Vector α n) :
    updateAt o f (updateAt o f v) = updateAt o f v := by
  cases o with
  | none => rfl
  | some c => simp [updateAt, hf]

/-- Updates of different entries commute, updates of one entry as their functions do. -/
theorem updateAt_comm (h : o = o' → ∀ x, f (g x) = g (f x)) (v : Vector α n) :
    updateAt o f (updateAt o' g v) = updateAt o' g (updateAt o f v) := by
  ext i hi
  let c : Fin n := ⟨i, hi⟩
  show (updateAt o f (updateAt o' g v))[c] = (updateAt o' g (updateAt o f v))[c]
  simp only [updateAt_getElem]
  split_ifs with h1 h2
  · exact h (h1.trans h2.symm) _
  all_goals rfl

theorem updateBit_idem (o : Option (Fin n)) (v : Bool) (x : BitVec n) :
    updateBit o v (updateBit o v x) = updateBit o v x := by
  cases o with
  | none => rfl
  | some c => simp only [updateBit, assignMask_eq_overwrite, overwrite_overwrite_same]

theorem updateBit_comm (h : o ≠ o') (v v' : Bool) (x : BitVec n) :
    updateBit o v (updateBit o' v' x) = updateBit o' v' (updateBit o v x) := by
  cases o with
  | none => rfl
  | some c =>
    cases o' with
    | none => rfl
    | some c' =>
      have hne : c'.val ≠ c.val := fun e => h (congrArg some (Fin.ext e.symm))
      simp only [updateBit, assignMask_eq_overwrite]
      exact overwrite_comm _ _ _ (bitMask_disjoint hne)

end

/-! ## The registers one by one -/

def doutAfter (i : Instr) (dout : Byte) : Byte :=
  match i with
  | .setDout ch v => updateBit (indexIn 8 ch) v dout
  | _ => dout

def aoutAfter (i : Instr) (aout : Vector Half 4) : Vector Half 4 :=
  match i with
  | .setAout ch v => updateAt (indexIn 4 ch) (fun _ => analogValue v) aout
  | _ => aout

def alliAfter (i : Instr) (alli : Byte) : Byte :=
  match i with
  | .setAlliance al => allianceByte al
  | _ => alli

def posAfter (i : Instr) (pos : Byte) : Byte :=
  match i with
  | .setPosition p => positionByte p
  | _ => pos

def axisAfter (i : Instr) (axis : Vector (Vector Byte 6) 4) : Vector (Vector Byte 6) 4 :=
  match i with
  | .setAxis j k v => updateAt (indexIn 4 j) (updateAt (indexIn 6 k) fun _ => axisValue v) axis
  | _ => axis

def btnAfter (i : Instr) (btn : Vector Half 4) : Vector Half 4 :=
  match i with
  | .setButton j n v => updateAt (indexIn 4 j) (updateBit (indexIn 16 n) v) btn
  | _ => btn

/-- The writes of the nine setters, register by register (R242: each writes its own field). -/
def registerWrites (i : Instr) (s : State) : State :=
  { s with
    cf := cfAfter i s.cfg s.cf
    dout := doutAfter i s.dout
    aout := aoutAfter i s.aout
    alli := alliAfter i s.alli
    pos := posAfter i s.pos
    axis := axisAfter i s.axis
    btn := btnAfter i s.btn }

theorem writesOf_eq_registerWrites {i : Instr} (hi : isInit i = false) (he : i ≠ .encode) (s : State) :
    writesOf i s = registerWrites i s := by
  cases i with
  | init => cases hi
  | encode => exact absurd rfl he
  | setEstop | setEnabled => rw [writesOf, assignMask_eq_overwrite]; rfl
  | setMode => rw [writesOf, writeMode_eq_overwrite]; rfl
  | setDout ch v =>
    simp only [registerWrites, cfAfter, cfMask, overwrite_zero, writesOf, doutAfter]
    cases indexIn 8 ch <;> rfl
  | setAout ch v =>
    simp only [registerWrites, cfAfter, cfMask, overwrite_zero, writesOf, aoutAfter]
    cases indexIn 4 ch <;> rfl
  | setAxis j k v =>
    simp only [registerWrites, cfAfter, cfMask, overwrite_zero, writesOf, axisAfter]
    cases indexIn 4 j with
    | none => rfl
    | some jj =>
      cases indexIn 6 k with
      | none => exact congrArg (fun a => { s with axis := a }) (updateAt_id (some jj) s.axis).symm
      | some kk => rfl
  | setButton j n v =>
    simp only [registerWrites, cfAfter, cfMask, overwrite_zero, writesOf, btnAfter]
    cases indexIn 4 j with
    | none => rfl
    | some jj =>
      cases indexIn 16 n with
      | none => exact congrArg (fun b => { s with btn := b }) (updateAt_id (some jj) s.btn).symm
      | some nn => rfl
  | _ => simp only [registerWrites, cfAfter, cfMask, overwrite_zero]; rfl

/-- Every command is INIT, ENCODE, or writes registers one by one. -/
theorem writesOf_cases (i : Instr) (s : State) :
    (∃ team, i = .init team ∧ writesOf i s = freshSession team s) ∨
    (i = .encode ∧ writesOf i s = encodePacket s) ∨
    (isInit i = false ∧ i ≠ .encode ∧ writesOf i s = registerWrites i s) := by
  cases hi : isInit i with
  | true =>
    obtain ⟨team, rfl⟩ := eq_init_of_isInit hi
    exact .inl ⟨team, rfl, rfl⟩
  | false =>
    by_cases he : i = .encode
    · subst he
      exact .inr (.inl ⟨rfl, rfl⟩)
    · exact .inr (.inr ⟨rfl, he, writesOf_eq_registerWrites hi he s⟩)

/-! ## One setter twice, two setters in either order -/

theorem registerWrites_idem (i : Instr) (s : State) : registerWrites i (registerWrites i s) = registerWrites i s := by
  have hcf (c : Config) (x : Byte) : cfAfter i c (cfAfter i c x) = cfAfter i c x := overwrite_overwrite_same _ _ _
  have hdout (x : Byte) : doutAfter i (doutAfter i x) = doutAfter i x := by
    cases i with
    | setDout => exact updateBit_idem _ _ _
    | _ => rfl
  have haout (x : Vector Half 4) : aoutAfter i (aoutAfter i x) = aoutAfter i x := by
    cases i with
    | setAout ch v => exact updateAt_idem (f := fun _ => analogValue v) (fun _ => rfl) _ _
    | _ => rfl
  have halli (x : Byte) : alliAfter i (alliAfter i x) = alliAfter i x := by cases i <;> rfl
  have hpos (x : Byte) : posAfter i (posAfter i x) = posAfter i x := by cases i <;> rfl
  have haxis (x : Vector (Vector Byte 6) 4) : axisAfter i (axisAfter i x) = axisAfter i x := by
    cases i with
    | setAxis j k v => exact updateAt_idem (updateAt_idem (f := fun _ => axisValue v) (fun _ => rfl) _) _ _
    | _ => rfl
  have hbtn (x : Vector Half 4) : btnAfter i (btnAfter i x) = btnAfter i x := by
    cases i with
    | setButton => exact updateAt_idem (updateBit_idem _ _) _ _
    | _ => rfl
  simp only [registerWrites, hcf, hdout, haout, halli, hpos, haxis, hbtn]

theorem indexIn_inj {n i i' : Nat} (h : 1 ≤ i ∧ i ≤ n) (h' : 1 ≤ i' ∧ i' ≤ n) (e : indexIn n i = indexIn n i') :
    i = i' := by
  rw [indexIn_eq_some h.1 h.2, indexIn_eq_some h'.1 h'.2, Option.some.injEq, Fin.mk.injEq] at e
  omega

/-- Different flags, or a flag and the mode: under a legal choice of masks no bit of `CF` is written by both (R8). -/
theorem cfMask_disjoint {c : Config} (hc : c.wellFormed = true) {i i' : Instr} (h : setterField i ≠ setterField i') :
    cfMask c i &&& cfMask c i' = 0 := by
  obtain ⟨-, ⟨hse, hsa, hst⟩, hea, het, -⟩ := Config.masks_of_wellFormed hc
  have distrib (x y z : Byte) (hy : x &&& y = 0) (hz : x &&& z = 0) : x &&& (y ||| z) = 0 := by
    rw [BitVec.and_or_distrib_left, hy, hz]
    rfl
  cases i with
  | setEstop =>
    cases i' with
    | setEstop => exact absurd rfl h
    | setEnabled => exact hse
    | setMode => exact distrib _ _ _ hsa hst
    | _ => exact BitVec.and_zero
  | setEnabled =>
    cases i' with
    | setEstop => exact (BitVec.and_comm _ _).trans hse
    | setEnabled => exact absurd rfl h
    | setMode => exact distrib _ _ _ hea het
    | _ => exact BitVec.and_zero
  | setMode =>
    cases i' with
    | setEstop => exact (BitVec.and_comm _ _).trans (distrib _ _ _ hsa hst)
    | setEnabled => exact (BitVec.and_comm _ _).trans (distrib _ _ _ hea het)
    | setMode => exact absurd rfl h
    | _ => exact BitVec.and_zero
  | _ => exact BitVec.zero_and

section
variable {i i' : Instr} (h : setterField i ≠ setterField i')
include h

theorem doutAfter_comm (hi : indicesInRange i = true) (hi' : indicesInRange i' = true) (x : Byte) :
    doutAfter i (doutAfter i' x) = doutAfter i' (doutAfter i x) := by
  cases i with
  | setDout ch v =>
    cases i' with
    | setDout ch' v' =>
      refine updateBit_comm (fun e => h ?_) v v' x
      rw [setterField, setterField, indexIn_inj (of_decide_eq_true hi) (of_decide_eq_true hi') e]
    | _ => rfl
  | _ => rfl

theorem aoutAfter_comm (hi : indicesInRange i = true) (hi' : indicesInRange i' = true) (x : Vector Half 4) :
    aoutAfter i (aoutAfter i' x) = aoutAfter i' (aoutAfter i x) := by
  cases i with
  | setAout ch v =>
    cases i' with
    | setAout ch' v' =>
      refine updateAt_comm (f := fun _ => analogValue v) (g := fun _ => analogValue v') (fun e => absurd ?_ h) x
      rw [setterField, setterField, indexIn_inj (of_decide_eq_true hi) (of_decide_eq_true hi') e]
    | _ => rfl
  | _ => rfl

theorem alliAfter_comm (x : Byte) : alliAfter i (alliAfter i' x) = alliAfter i' (alliAfter i x) := by
  cases i with
  | setAlliance =>
    cases i' with
    | setAlliance => exact absurd rfl h
    | _ => rfl
  | _ => rfl

theorem posAfter_comm (x : Byte) : posAfter i (posAfter i' x) = posAfter i' (posAfter i x) := by
  cases i with
  | setPosition =>
    cases i' with
    | setPosition => exact absurd rfl h
    | _ => rfl
  | _ => rfl

theorem axisAfter_comm (hi : indicesInRange i = true) (hi' : indicesInRange i' = true)
    (x : Vector (Vector Byte 6) 4) : axisAfter i (axisAfter i' x) = axisAfter i' (axisAfter i x) := by
  cases i with
  | setAxis j k v =>
    cases i' with
    | setAxis j' k' v' =>
      obtain ⟨hj, hj4, hk⟩ := of_decide_eq_true hi
      obtain ⟨hj', hj4', hk'⟩ := of_decide_eq_true hi'
      refine updateAt_comm (fun ej => updateAt_comm fun ek => absurd ?_ h) x
      rw [setterField, setterField, indexIn_inj ⟨hj, hj4⟩ ⟨hj', hj4'⟩ ej, indexIn_inj hk hk' ek]
    | _ => rfl
  | _ => rfl

theorem btnAfter_comm (hi : indicesInRange i = true) (hi' : indicesInRange i' = true) (x : Vector Half 4) :
    btnAfter i (btnAfter i' x) = btnAfter i' (btnAfter i x) := by
  cases i with
  | setButton j n v =>
    cases i' with
    | setButton j' n' v' =>
      obtain ⟨hj, hj4, hn⟩ := of_decide_eq_true hi
      obtain ⟨hj', hj4', hn'⟩ := of_decide_eq_true hi'
      refine updateAt_comm (fun ej => updateBit_comm (fun en => h ?_) v v') x
      rw [setterField, setterField, indexIn_inj ⟨hj, hj4⟩ ⟨hj', hj4'⟩ ej, indexIn_inj hn hn' en]
    | _ => rfl
  | _ => rfl

/-- R242: setters of different fields commute register by register; two of one register write different parts of it. -/
theorem registerWrites_comm (hi : indicesInRange i = true) (hi' : indicesInRange i' = true) {s : State}
    (hc : s.cfg.wellFormed = true) :
    registerWrites i (registerWrites i' s) = registerWrites i' (registerWrites i s) := by
  have hcf : cfAfter i s.cfg (cfAfter i' s.cfg s.cf) = cfAfter i' s.cfg (cfAfter i s.cfg s.cf) :=
    overwrite_comm _ _ _ (cfMask_disjoint hc h.symm)
  simp only [registerWrites, hcf, doutAfter_comm h hi hi', aoutAfter_comm h hi hi', alliAfter_comm h,
    posAfter_comm h, axisAfter_comm h hi hi', btnAfter_comm h hi hi']

end

theorem registerWrites_respond (i : Instr) (s : State) (st : Status) (d : Half) :
    registerWrites i (s.respond st d) = (registerWrites i s).respond st d := rfl

/-- In a session a setter with its indices in range writes its register and answers 0. -/
theorem exec_setter {i : Instr} {f : SetterField} (hf : setterField i = some f) (hi : indicesInRange i = true)
    {s : State} (h : s.Live) : exec i s = .next ((registerWrites i s).respond .ok 0) := by
  have hw : writesOf i s = registerWrites i s ∧ dataOf i s = 0 := by
    cases i with
    | init | getEstop | getEnabled | getMode | encode => cases hf
    | _ => exact ⟨writesOf_eq_registerWrites (by rfl) (by simp) s, rfl⟩
  rw [exec_live h.1 h.2 hi, hw.1, hw.2]

/-! ## Operands saturated by the issuer (R93, R94) -/

theorem fitsInt_saturateInt (v : Int) : fitsInt (saturateInt v) = true := by
  unfold fitsInt saturateInt
  split_ifs with hlow hhigh
  · decide
  · decide
  · simp
    omega

theorem fitIndex_le (top : Nat) (i : Int) : fitIndex top i ≤ top := by
  unfold fitIndex
  split_ifs <;> omega

/-- An index that fits no field is in no domain, and neither is 0. -/
theorem indexIn_fitIndex {n top : Nat} (h : n ≤ top) (i : Nat) : indexIn n (fitIndex top i) = indexIn n i := by
  unfold fitIndex
  split_ifs with hi
  · rfl
  · rw [indexIn_eq_none (by omega), indexIn_eq_none (by omega)]

/-- The operand range holds every interval an operand is clamped into. -/
theorem clamp_saturateInt {lo hi : Int} (hlo : -32768 ≤ lo) (h : lo ≤ hi) (hhi : hi ≤ 32767) (v : Int) :
    clamp (saturateInt v) lo hi = clamp v lo hi := by
  unfold clamp saturateInt
  split_ifs <;> omega

theorem saturateInt_eq_iff {v c : Int} (h : -32768 < c ∧ c < 32767) : saturateInt v = c ↔ v = c := by
  unfold saturateInt
  split_ifs <;> omega

theorem positionByte_saturateInt (p : Int) : positionByte (saturateInt p) = positionByte p := by
  have h1 : saturateInt p = 1 ↔ p = 1 := saturateInt_eq_iff (by decide)
  have h2 : saturateInt p = 2 ↔ p = 2 := saturateInt_eq_iff (by decide)
  have h3 : saturateInt p = 3 ↔ p = 3 := saturateInt_eq_iff (by decide)
  simp only [positionByte, h1, h2, h3]

theorem analogValue_saturateInt (v : Int) : analogValue (saturateInt v) = analogValue v := by
  rw [analogValue, clamp_saturateInt (by decide) (by decide) (by decide), analogValue]

theorem axisValue_saturateInt (v : Int) : axisValue (saturateInt v) = axisValue v := by
  rw [axisValue, clamp_saturateInt (by decide) (by decide) (by decide), axisValue]

theorem wellFormed_fitOperands (i : Instr) : (fitOperands i).wellFormed = true := by
  have ha (j : Nat) : fitsA (fitIndex 15 j) = true := decide_eq_true (fitIndex_le 15 j)
  have hb (n : Nat) : fitsB (fitIndex 255 n) = true := decide_eq_true (fitIndex_le 255 n)
  cases i <;> simp only [fitOperands, Instr.wellFormed, fitsInt_saturateInt, ha, hb, Bool.and_self]

/-- A command's meaning asks of an index only its place in the domain, and of a value what is stored of it. -/
theorem exec_fitOperands (i : Instr) (s : State) : exec (fitOperands i) s = exec i s := by
  have hch {n : Nat} (h : n ≤ 255) (ch : Nat) : indexIn n (fitIndex 255 ch) = indexIn n ch := indexIn_fitIndex h ch
  have hj (j : Nat) : indexIn 4 (fitIndex 15 j) = indexIn 4 j := indexIn_fitIndex (by decide) j
  cases i with
  | setPosition p => simp only [fitOperands, exec, execSetPosition, positionByte_saturateInt]
  | setDout ch v => simp only [fitOperands, exec, execSetDout, hch (show 8 ≤ 255 by decide)]
  | setAout ch v =>
    simp only [fitOperands, exec, execSetAout, hch (show 4 ≤ 255 by decide), analogValue_saturateInt]
  | setAxis j k v =>
    simp only [fitOperands, exec, execSetAxis, hj, hch (show 6 ≤ 255 by decide), axisValue_saturateInt]
  | setButton j n v => simp only [fitOperands, exec, execSetButton, hj, hch (show 16 ≤ 255 by decide)]
  | _ => rfl

/-! ## The obligations -/

/-- Settles O41: each setter completes and leaves a session (`exec_setter`), and their writes commute
(`registerWrites_comm`). -/
theorem settersOfDifferentFieldsCommute : Obligations.SettersOfDifferentFieldsCommute := by
  intro s i i' f f' h hc hf hf' hne hi hi'
  have hfield : setterField i' ≠ setterField i := by
    rw [hf, hf']
    exact fun e => hne (Option.some.inj e).symm
  have both {a b : Instr} {fa fb : SetterField} (ha : setterField a = some fa) (hb : setterField b = some fb)
      (hia : indicesInRange a = true) (hib : indicesInRange b = true) :
      execAll [a, b] s = .next (((registerWrites b (registerWrites a s)).respond .ok 0).respond .ok 0) := by
    have hlive : ((registerWrites a s).respond .ok 0).Live := h
    rw [execAll_cons (exec_setter ha hia h), execAll_cons (exec_setter hb hib hlive), registerWrites_respond]
    rfl
  refine ⟨_, both hf hf' hi hi', ?_⟩
  rw [both hf' hf hi' hi, registerWrites_comm hfield hi' hi hc]

/-- Settles O42: rejected, a command is rejected again; completed, it writes the same again (`registerWrites_idem`), and
INIT the template. -/
theorem allButEncodeAreIdempotent : Obligations.AllButEncodeAreIdempotent := by
  refine ⟨fun i s t he h hexec => ?_, fun s t h hexec => ?_⟩
  · cases hr : indicesInRange i with
    | false =>
      obtain rfl := Host.Outcome.next.inj ((exec_outOfRange h.1 h.2 hr).symm.trans hexec)
      exact ⟨_, exec_outOfRange (s := s.respond .outOfRange 0) h.1 h.2 hr, rfl⟩
    | true =>
      obtain rfl := Host.Outcome.next.inj ((exec_live h.1 h.2 hr).symm.trans hexec)
      have hlive : ((writesOf i s).respond .ok (dataOf i s)).Live :=
        ⟨(writesOf_fatal i s).trans h.1, writesOf_session (.inl h.2)⟩
      refine ⟨_, exec_live hlive.1 hlive.2 hr, ?_⟩
      rcases writesOf_cases i s with ⟨team, rfl, -⟩ | ⟨rfl, -⟩ | ⟨hi, -, hw⟩
      · rfl
      · exact absurd rfl he
      · rw [writesOf_eq_registerWrites hi he, hw, registerWrites_respond, registerWrites_idem]
        rfl
  · obtain rfl := Host.Outcome.next.inj ((exec_encode h).symm.trans hexec)
    rw [State.respond_index, encodePacket_index, nextIndex]
    simp

/-- Settles O43, by what each meaning asks of its operands (`exec_fitOperands`). -/
theorem saturationByTheIssuerLosesNothing : Obligations.SaturationByTheIssuerLosesNothing := fun i =>
  ⟨wellFormed_fitOperands i, exec_fitOperands i⟩

/-- Settles O46: a fault writes nothing, and a command that completes is INIT, ENCODE, or writes its own register
(`writesOf_cases`). -/
theorem onlyListedCommandsWriteEachRegister : Obligations.OnlyListedCommandsWriteEachRegister := by
  intro i s t h
  rcases exec_cases h with ⟨st, -, rfl⟩ | ⟨-, -, -, rfl⟩
  · cases i <;> simp
  · rcases writesOf_cases i s with ⟨team, rfl, hw⟩ | ⟨rfl, hw⟩ | ⟨hi, he, hw⟩
    · simp [hw]
    · simp [hw]
    · rw [hw]
      cases i with
      | init => cases hi
      | encode => exact absurd rfl he
      | _ => simp [registerWrites, cfAfter, cfMask, doutAfter, aoutAfter, alliAfter, posAfter, axisAfter, btnAfter]

end Machine

end Sys2Proof

/-! O23, O39, O40 (41_control_flags.md): GET_MODE, and what the flags and the mode read back.

A control-flag command overwrites the bits of its mask in `CF` (`cfAfter`), and the masks of different commands are
disjoint (`cfMask_disjoint`). So what one of them wrote stands until the same command writes again. -/

namespace Sys2Proof

namespace Machine

/-! ## Sequences of control-flag commands -/

theorem exec_controlFlag {i : Instr} (hi : isControlFlagCommand i = true) {s : State} (h : s.Live) :
    ∃ d, exec i s = .next ((registerWrites i s).respond .ok d) := by
  have hw : indicesInRange i = true ∧ writesOf i s = registerWrites i s := by
    cases i with
    | setEstop | getEstop | setEnabled | getEnabled | setMode | getMode =>
      exact ⟨rfl, writesOf_eq_registerWrites (by rfl) (by simp) s⟩
    | _ => cases hi
  exact ⟨dataOf i s, by rw [exec_live h.1 h.2 hw.1, hw.2]⟩

/-- Bits that none of the commands writes are left as they were. -/
theorem execAll_controlFlags {cs : List Instr} {mask : Byte} {s : State} (h : s.Live)
    (hcs : ∀ c ∈ cs, isControlFlagCommand c = true ∧ cfMask s.cfg c &&& mask = 0) :
    ∃ t, execAll cs s = .next t ∧ t.Live ∧ t.cfg = s.cfg ∧ t.cf &&& mask = s.cf &&& mask := by
  induction cs generalizing s with
  | nil => exact ⟨s, rfl, h, rfl, rfl⟩
  | cons c cs ih =>
    obtain ⟨⟨hc, hmask⟩, hcs⟩ := List.forall_mem_cons.1 hcs
    obtain ⟨d, hnext⟩ := exec_controlFlag hc h
    obtain ⟨t, ht, hlive, hcfg, hcf⟩ := ih (s := (registerWrites c s).respond .ok d) h hcs
    exact ⟨t, (execAll_cons hnext cs).trans ht, hlive, hcfg,
      hcf.trans (overwrite_and_of_disjoint s.cf (cfBits s.cfg c) hmask)⟩

/-- The bits a command has written stand until one of the same field writes. -/
theorem execAll_cons_controlFlags {i : Instr} {cs : List Instr} {s : State} (h : s.Live) (hc : s.cfg.wellFormed = true)
    (hi : isControlFlagCommand i = true)
    (hcs : ∀ c ∈ cs, isControlFlagCommand c = true ∧ setterField c ≠ setterField i) :
    ∃ t, execAll (i :: cs) s = .next t ∧ t.Live ∧ t.cfg = s.cfg ∧
      t.cf &&& cfMask s.cfg i = cfBits s.cfg i &&& cfMask s.cfg i := by
  obtain ⟨d, hnext⟩ := exec_controlFlag hi h
  obtain ⟨t, ht, hlive, hcfg, hcf⟩ := execAll_controlFlags (s := (registerWrites i s).respond .ok d) h
    fun c hcs' => ⟨(hcs c hcs').1, cfMask_disjoint hc (hcs c hcs').2⟩
  exact ⟨t, (execAll_cons hnext cs).trans ht, hlive, hcfg,
    hcf.trans (overwrite_and_of_subset s.cf (cfBits s.cfg i) BitVec.and_self)⟩

theorem setterField_ne_estop {i : Instr} (h : ∀ x, i ≠ .setEstop x) : setterField i ≠ some .estop := by
  cases i with
  | setEstop v => exact absurd rfl (h v)
  | _ => simp [setterField]

theorem setterField_ne_enabled {i : Instr} (h : ∀ x, i ≠ .setEnabled x) : setterField i ≠ some .enabled := by
  cases i with
  | setEnabled v => exact absurd rfl (h v)
  | _ => simp [setterField]

/-- The bit test of R136 on a flag's bits as they were set. -/
theorem flag_response {field mask : Byte} (hmask : mask ≠ 0) {v : Bool}
    (h : field &&& mask = (if v then mask else 0) &&& mask) :
    (if field &&& mask ≠ 0 then 0x00000001#32 else 0x00000000#32) = if v then 0x00000001#32 else 0x00000000#32 := by
  rw [h]
  cases v with
  | false => simp
  | true => simpa using hmask

/-! ## The mode -/

/-- GET_MODE as a response: the two tests of R135. -/
theorem setWidth_modeData_readModeBits (c : Config) (cf : Byte) :
    (modeData (readModeBits c cf)).setWidth 32 =
      if cf &&& c.autoMask ≠ 0 then 0x00000001#32
      else if cf &&& c.testMask ≠ 0 then 0x00000002#32
      else 0x00000000#32 := by
  simp only [readModeBits, testMask_eq_true]
  split_ifs <;> rfl

section
variable {c : Config} (hc : c.wellFormed = true) (cf : Byte) (m : Mode)
include hc

theorem writeMode_and_autoMask :
    writeMode c cf m &&& c.autoMask = if m = .autonomous then c.autoMask else 0 := by
  obtain ⟨-, -, -, -, hat⟩ := Config.masks_of_wellFormed hc
  have hsub : (c.autoMask ||| c.testMask) &&& c.autoMask = c.autoMask := by
    ext i hi
    cases h : c.autoMask[i] <;> simp [h]
  rw [writeMode_eq_overwrite, overwrite_and_of_subset _ _ hsub]
  cases m with
  | teleop => exact BitVec.zero_and
  | autonomous => exact BitVec.and_self
  | test => exact (BitVec.and_comm _ _).trans hat

theorem writeMode_and_testMask :
    writeMode c cf m &&& c.testMask = if m = .test then c.testMask else 0 := by
  obtain ⟨-, -, -, -, hat⟩ := Config.masks_of_wellFormed hc
  have hsub : (c.autoMask ||| c.testMask) &&& c.testMask = c.testMask := by
    ext i hi
    cases h : c.testMask[i] <;> simp [h]
  rw [writeMode_eq_overwrite, overwrite_and_of_subset _ _ hsub]
  cases m with
  | teleop => exact BitVec.zero_and
  | autonomous => exact hat
  | test => exact BitVec.and_self

theorem readModeBits_writeMode : readModeBits c (writeMode c cf m) = m := by
  obtain ⟨⟨-, -, ha, ht⟩, -, -⟩ := Config.masks_of_wellFormed hc
  simp only [readModeBits, testMask_eq_true, writeMode_and_autoMask hc, writeMode_and_testMask hc]
  cases m with
  | teleop => rfl
  | autonomous => exact if_pos ha
  | test => exact if_pos ht

/-- R36 after SET_MODE: the pair has at most one bit set. -/
theorem writeMode_exclusive : writeMode c cf m &&& c.autoMask = 0 ∨ writeMode c cf m &&& c.testMask = 0 := by
  rw [writeMode_and_autoMask hc, writeMode_and_testMask hc]
  cases m with
  | autonomous => exact .inr rfl
  | _ => exact .inl rfl

end

theorem exec_getMode {s : State} (h : s.Live) {m : Mode} (hm : readModeBits s.cfg s.cf = m) :
    exec .getMode s = .next (s.answered ((modeData m).setWidth 32)) := by
  rw [exec_of_live rfl h, dataOf, hm]
  rfl

/-! ## The obligations -/

/-- Settles O23, by the four parts of a session command's rule; its data is `setWidth_modeData_readModeBits`. -/
theorem getModeRule : Obligations.GetModeRule := by
  refine ⟨packWord_zero_zero 0x7 0, legalExactlyWhen_of_legalWord fun _ h => legalWord_noOperand (.inr (.inr (.inl h))),
    refusedOutOfSession rfl, fun s h _ => ?_, fun s h => ⟨_, ?_, exec_getMode h rfl⟩⟩
  · rw [exec_getMode h rfl, setWidth_modeData_readModeBits]
  · cases readModeBits s.cfg s.cf with
    | teleop => exact .inl rfl
    | autonomous => exact .inr (.inl rfl)
    | test => exact .inr (.inr rfl)

/-- Settles O39: the flag's bits stand (`execAll_cons_controlFlags`), and the getter tests them. -/
theorem flagsReadBack : Obligations.FlagsReadBack := by
  refine ⟨fun s v cs h hc hcs => ?_, fun s v cs h hc hcs => ?_⟩
  all_goals obtain ⟨⟨hestop, henabled, -, -⟩, -, -⟩ := Config.masks_of_wellFormed hc
  · obtain ⟨t, ht, hlive, hcfg, hcf⟩ := execAll_cons_controlFlags (i := .setEstop v) h hc rfl
      fun c hmem => ⟨(hcs c hmem).1, setterField_ne_estop (hcs c hmem).2⟩
    exact ⟨t, ht, by rw [getEstopRule.2.2.2 t hlive, hcfg, flag_response hestop hcf]⟩
  · obtain ⟨t, ht, hlive, hcfg, hcf⟩ := execAll_cons_controlFlags (i := .setEnabled v) h hc rfl
      fun c hmem => ⟨(hcs c hmem).1, setterField_ne_enabled (hcs c hmem).2⟩
    exact ⟨t, ht, by rw [getEnabledRule.2.2.2 t hlive, hcfg, flag_response henabled hcf]⟩

/-- Settles O40: SET_MODE writes the pair whole, so it reads back (`readModeBits_writeMode`); INIT clears it. -/
theorem modeReadsBack : Obligations.ModeReadsBack := by
  refine ⟨fun s m h hc => ?_, fun s team hf => ?_⟩
  · have hlive : ((writesOf (.setMode m) s).answered 0#32).Live := h
    refine ⟨_, exec_of_live rfl h, writeMode_exclusive hc s.cf m,
      (exec_getMode hlive (readModeBits_writeMode hc s.cf m)).trans ?_⟩
    cases m <;> rfl
  · have hlive : ((freshSession team s).respond .ok 0).Live := ⟨hf, rfl⟩
    have hmode : readModeBits s.cfg 0 = .teleop := by simp [readModeBits, testMask]
    exact ⟨_, exec_init hf team, exec_getMode hlive hmode⟩

end Machine

end Sys2Proof

/-! O30, O33, O36, O37, O38 (45_encode.md): ENCODE as one command, what a setter puts on the wire, and the byte-serial
encoder.

O36 and O37 are the rule of a setter (O26 to O29) followed by the wire layout (O31). The byte-serial encoder of R189
ends with a buffer that reads as that of ENCODE at every offset, and canonical buffers that read alike are equal. -/

namespace Sys2Proof

namespace Machine

/-! ## The buffer after an ENCODE -/

theorem nextIndex_eq (idx : Half) : nextIndex idx = BitVec.ofNat 16 ((idx.toNat + 1) % 65536) := indexAfter_eq idx 1

theorem isSome_read_storePacket (m : Memory) {body : List Byte} (h : body.length = 1020) {off : Nat}
    (hoff : off < 1024) : ((storePacket m body).read off).isSome = true := by
  rw [read_storePacket m h, if_pos hoff]
  split_ifs with hbody
  · rw [List.getElem?_eq_getElem (h ▸ hbody)]
    rfl
  · rfl

theorem read_storePacket_of_ge (m : Memory) {body : List Byte} (h : body.length = 1020) {off : Nat}
    (hoff : 1024 ≤ off) : (storePacket m body).read off = m.read off := by
  rw [read_storePacket m h, if_neg (by omega), if_neg (by omega)]

/-- R180 with its response, field by field. -/
theorem exec_encode_eq {s : State} (h : s.Live) : exec .encode s = .next { s with
    buf := storePacket s.buf (packBytes s s.index)
    index := nextIndex s.index
    bufValid := true
    responses := s.responses ++ [s.index.setWidth 32] } := by
  rw [exec_encode h, State.respond_eq, responseWord_ok, encodePacket, State.answered]

/-! ## The byte-serial encoder (R189) -/

/-- After its 1024 beats and its end the serial encoder holds the packet of R180 and its checksum. -/
theorem serialEncode_eq_encodePacket {s : State} (h : s.buf.wf) : serialEncode s = encodePacket s := by
  obtain ⟨hsnap, -, hacc, hread, hwf⟩ := serialBeats_all s
  have hlen : (packBytes s s.index).length = 1020 := packBytes_length s s.index
  have hcrc : (serialBeats bufBytes (serialStart s)).acc ^^^ crcXorOut = packetChecksum (packBytes s s.index) := by
    rw [hacc]
    rfl
  rw [serialEncode, serialFinish, hcrc]
  generalize serialBeats bufBytes (serialStart s) = e at hsnap hread hwf ⊢
  subst hsnap
  have hbuf : e.buf.memWrite 1020 4 (packetChecksum (packBytes e.snap e.snap.index)).toNat =
      storePacket e.snap.buf (packBytes e.snap e.snap.index) := by
    refine Memory.ext_read (Memory.wf_memWrite (hwf h) _ (by decide)) (wf_storePacket h hlen) fun o => ?_
    rw [Memory.read_memWrite, hread, read_storePacket _ hlen]
    by_cases hbody : o < 1020
    · rw [if_neg (by omega), if_pos hbody, if_pos hbody, packBytes_getElem? _ _ hbody]
    · rw [if_neg hbody, if_neg hbody]
      by_cases hsum : o < 1024
      · rw [if_pos (by omega), if_pos hsum]
      · rw [if_neg (by omega), if_neg hsum]
  rw [hbuf, encodePacket]

/-! ## A setter, then ENCODE -/

theorem execAll_pair {i j : Instr} {s t u : State} (hi : exec i s = .next t) (hj : exec j t = .next u) :
    execAll [i, j] s = .next u := by
  rw [execAll_cons hi, execAll_cons hj, execAll]

/-- An index of R94 as a position. -/
theorem exists_fin_eq_succ {n i : Nat} (h1 : 1 ≤ i) (h2 : i ≤ n) : ∃ c : Fin n, i = c.val + 1 :=
  ⟨⟨i - 1, by omega⟩, by simp; omega⟩

/-- A two's complement byte as an unsigned one (R28). -/
theorem toNat_eq_toInt_emod (x : Byte) : (x.toNat : Int) = x.toInt % 256 := by
  rw [BitVec.toInt_eq_toNat_cond]
  split_ifs <;> omega

/-- Bit `p` of a button register stands in its low byte or in its high one (R29, R66). -/
theorem getLsbD_button_byte (x : Half) {p : Nat} (hp : p < 16) :
    (if p < 8 then x.setWidth 8 else (x >>> 8).setWidth 8).getLsbD (p % 8) = x.getLsbD p := by
  split_ifs with h
  · rw [Nat.mod_eq_of_lt h]
    simp [h]
  · simp [show p % 8 < 8 by omega, show 8 + p % 8 = p by omega]

/-! ## The obligations -/

/-- Settles O30: the word and its row of R99, the refusals, and `exec_encode_eq`; the packet covers the buffer and
nothing outside it. -/
theorem encodeRule : Obligations.EncodeRule := by
  refine ⟨packWord_zero_zero 0xE 0,
    legalExactlyWhen_of_legalWord fun _ h => legalWord_noOperand (.inr (.inr (.inr h))),
    refusedOutOfSession rfl, fun s h => ⟨_, (exec_encode_eq h).trans ?_,
      fun _ => isSome_read_storePacket s.buf (packBytes_length s s.index),
      fun _ => read_storePacket_of_ge s.buf (packBytes_length s s.index)⟩⟩
  rw [nextIndex_eq]

/-- Settles O33: the procedure evaluated. -/
theorem checksumCheckValues : Obligations.ChecksumCheckValues := by
  unfold Obligations.ChecksumCheckValues
  decide +kernel

/-- Settles O36: O26 and O29 give the bit in its register, O31 the place of that register on the wire. -/
theorem bitsReadBackInThePacket : Obligations.BitsReadBackInThePacket := by
  refine ⟨fun s ch v h h1 h8 => ?dout, fun s j n v h hj1 hj4 h1 h16 => ?button⟩
  case dout =>
    obtain ⟨-, -, -, -, hrule⟩ := setDoutRule
    obtain ⟨d, hset, hbits⟩ := hrule ch v s h h1 h8
    obtain ⟨t, ht, -, -, -, hdout, -⟩ :=
      encodeWritesTheWireLayout { s with dout := d, responses := s.responses ++ [0x00000000#32] } h
    exact ⟨t, d, execAll_pair hset ht, hdout, by rw [hbits (ch - 1) (by omega), if_pos rfl]⟩
  case button =>
    obtain ⟨j, rfl⟩ := exists_fin_eq_succ hj1 hj4
    obtain ⟨-, -, -, -, hrule⟩ := setButtonRule
    obtain ⟨x, hset, hbits⟩ := hrule j n v s h h1 h16
    obtain ⟨t, ht, -, -, -, -, -, -, -, -, -, hbtn, -⟩ :=
      encodeWritesTheWireLayout { s with btn := s.btn.set j x, responses := s.responses ++ [0x00000000#32] } h
    obtain ⟨hhi, hlo⟩ := hbtn j
    have hx : (s.btn.set j x)[j] = x := Vector.getElem_set_self ..
    refine ⟨t, if n - 1 < 8 then x.setWidth 8 else (x >>> 8).setWidth 8, execAll_pair hset ht, ?_, ?_⟩
    · have hn : n - 1 < 8 ↔ n ≤ 8 := by omega
      simp only [hn]
      split_ifs
      · rw [hlo, hx]
      · rw [hhi, hx]
    · rw [getLsbD_button_byte x (by omega), hbits (n - 1) (by omega), if_pos rfl]

/-- Settles O37: O27 and O28 give the register as the clamped integer, O31 its bytes on the wire. -/
theorem clampedValuesArriveOnTheWire : Obligations.ClampedValuesArriveOnTheWire := by
  refine ⟨fun s c v h h1 h4 => ?analog, fun s j k v h hj1 hj4 hk1 hk6 => ?axis⟩
  case analog =>
    obtain ⟨c, rfl⟩ := exists_fin_eq_succ h1 h4
    obtain ⟨-, -, -, -, hrule⟩ := setAoutRule
    obtain ⟨x, hset, hx⟩ := hrule c v s h
    obtain ⟨t, ht, -, -, -, -, -, -, -, -, -, -, haout, -⟩ :=
      encodeWritesTheWireLayout { s with aout := s.aout.set c x, responses := s.responses ++ [0x00000000#32] } h
    obtain ⟨hhi, hlo⟩ := haout c
    have hc : (s.aout.set c x)[c] = x := Vector.getElem_set_self ..
    simp only [hc] at hhi hlo
    refine ⟨t, _, _, execAll_pair hset ht, hhi, hlo, ?_⟩
    rw [← hiByte_eq_setWidth, ← loByte_eq_setWidth, ofBigEndian_hi_lo, hx]
  case axis =>
    obtain ⟨j, rfl⟩ := exists_fin_eq_succ hj1 hj4
    obtain ⟨k, rfl⟩ := exists_fin_eq_succ hk1 hk6
    obtain ⟨-, -, -, -, hrule⟩ := setAxisRule
    obtain ⟨x, hset, hx⟩ := hrule j k v s h
    obtain ⟨t, ht, -, -, -, -, -, -, -, -, haxis, -⟩ := encodeWritesTheWireLayout
      { s with axis := s.axis.set j (s.axis[j].set k x), responses := s.responses ++ [0x00000000#32] } h
    have hjk : (s.axis.set j (s.axis[j].set k x))[j][k] = x := by simp
    exact ⟨t, x, execAll_pair hset ht, (haxis j k).trans (congrArg some hjk), by rw [toNat_eq_toInt_emod, hx]⟩

/-- Settles O38: but for the response, the two ends are one state (`serialEncode_eq_encodePacket`). -/
theorem serialEncoderRefinesEncode : Obligations.SerialEncoderRefinesEncode := by
  intro s h hwf
  rw [exec_encode_eq h, serialEncode_eq_encodePacket hwf, encodePacket]

end Machine

end Sys2Proof

/-! O47 to O52 (10_state.md sections 6 and 9, 70_reset_and_hazards.md section 1): the invariants, and the state after
reset.

O47 to O49 are `Kept` predicates: they do not speak of the ports' data, and INIT, ENCODE and the writes of a register
(`writesOf_cases`) keep them. -/

namespace Sys2Proof

/-- What R8 gives of a legal choice of the two template bytes. -/
theorem Config.station_of_wellFormed {c : Config} (h : c.wellFormed = true) :
    (c.resetAlliance = 82 ∨ c.resetAlliance = 66) ∧
    (c.resetPosition = 48 ∨ c.resetPosition = 49 ∨ c.resetPosition = 50) := by
  simp only [Config.wellFormed, Config.allianceOk, Config.positionOk, Bool.and_eq_true, Bool.or_eq_true, beq_iff_eq,
    or_assoc] at h
  obtain ⟨⟨-, halliance⟩, hposition⟩ := h
  exact ⟨halliance, hposition⟩

namespace Machine

/-! ## The registers in a session (R35 to R38) -/

theorem analogValue_le (v : Int) : (analogValue v).toNat ≤ 1023 := by
  have h := clamp_bounds v 0 1023 (by decide)
  have hv := analogValue_toNat v
  omega

theorem aoutAfter_le (i : Instr) {aout : Vector Half 4} (h : ∀ c : Fin 4, aout[c].toNat ≤ 1023) (c : Fin 4) :
    (aoutAfter i aout)[c].toNat ≤ 1023 := by
  cases i with
  | setAout ch v =>
    rw [aoutAfter, updateAt_getElem]
    split_ifs
    · exact analogValue_le v
    · exact h c
  | _ => exact h c

theorem alliAfter_legal (i : Instr) {alli : Byte} (h : alli = 82 ∨ alli = 66) :
    alliAfter i alli = 82 ∨ alliAfter i alli = 66 := by
  cases i with
  | setAlliance al =>
    cases al with
    | red => exact .inl rfl
    | blue => exact .inr rfl
  | _ => exact h

theorem posAfter_legal (i : Instr) {pos : Byte} (h : pos = 48 ∨ pos = 49 ∨ pos = 50) :
    posAfter i pos = 48 ∨ posAfter i pos = 49 ∨ posAfter i pos = 50 := by
  cases i with
  | setPosition p =>
    rw [posAfter, positionByte_eq]
    split_ifs <;> simp
  | _ => exact h

section
variable {c : Config} {cf : Byte} (i : Instr)

/-- SET_MODE writes the pair as a pair; no other command touches its bits. -/
theorem cfAfter_exclusive (hc : c.wellFormed = true) (h : cf &&& c.autoMask = 0 ∨ cf &&& c.testMask = 0) :
    cfAfter i c cf &&& c.autoMask = 0 ∨ cfAfter i c cf &&& c.testMask = 0 := by
  obtain ⟨-, ⟨-, hsa, hst⟩, hea, het, -⟩ := Config.masks_of_wellFormed hc
  cases i with
  | setMode m =>
    have hw : cfAfter (.setMode m) c cf = writeMode c cf m := (writeMode_eq_overwrite c cf m).symm
    rw [hw]
    exact writeMode_exclusive hc cf m
  | setEstop => rwa [cfAfter, cfMask, overwrite_and_of_disjoint _ _ hsa, overwrite_and_of_disjoint _ _ hst]
  | setEnabled => rwa [cfAfter, cfMask, overwrite_and_of_disjoint _ _ hea, overwrite_and_of_disjoint _ _ het]
  | _ => simpa [cfAfter, cfMask] using h

theorem cfMask_and_unassigned :
    cfMask c i &&& ~~~(c.estopMask ||| c.enabledMask ||| c.autoMask ||| c.testMask) = 0 := by
  cases i with
  | setEstop | setEnabled | setMode =>
    simp only [cfMask]
    ext n hn
    cases ha : c.autoMask[n] <;> simp +contextual [ha]
  | _ => exact BitVec.zero_and

theorem cfAfter_unassigned
    (h : cf &&& ~~~(c.estopMask ||| c.enabledMask ||| c.autoMask ||| c.testMask) = 0) :
    cfAfter i c cf &&& ~~~(c.estopMask ||| c.enabledMask ||| c.autoMask ||| c.testMask) = 0 :=
  (overwrite_and_of_disjoint cf (cfBits c i) (cfMask_and_unassigned i)).trans h

end

/-- R8 and R43: the template of a session is legal. -/
theorem freshSession_invariant {s : State} (hc : s.cfg.wellFormed = true) (team : Half) :
    (freshSession team s).SessionInvariant := by
  have hanalog : (freshSession team s).AnalogInRange := fun c => by simp
  exact ⟨hc, fun _ => ⟨hanalog, .inl BitVec.zero_and, Config.station_of_wellFormed hc, BitVec.zero_and⟩⟩

theorem kept_sessionInvariant : Kept State.SessionInvariant where
  withPorts _ _ _ h := h
  writesOf {i s} _ hsession h := by
    obtain ⟨hc, hs⟩ := h
    rcases writesOf_cases i s with ⟨team, rfl, hw⟩ | ⟨rfl, hw⟩ | ⟨hi, -, hw⟩ <;> rw [hw]
    · exact freshSession_invariant hc team
    · exact ⟨hc, hs⟩
    · refine ⟨hc, fun hsession => ?_⟩
      obtain ⟨haout, hmode, ⟨halli, hpos⟩, hcf⟩ := hs hsession
      exact ⟨aoutAfter_le i haout, cfAfter_exclusive i hc hmode, ⟨alliAfter_legal i halli, posAfter_legal i hpos⟩,
        cfAfter_unassigned i hcf⟩

/-! ## The buffer (R33, R39, R60) -/

theorem kept_wf : Kept fun s => s.buf.wf where
  withPorts _ _ _ h := h
  writesOf {i s} _ _ h := by
    rcases writesOf_cases i s with ⟨team, rfl, hw⟩ | ⟨rfl, hw⟩ | ⟨-, -, hw⟩ <;> rw [hw]
    · exact h
    · rw [encodePacket_buf]
      exact wf_storePacket h (packBytes_length s s.index)
    · exact h

/-- What R31, R63 and R67 say of the packet (O31) and its checksum read back (R185). -/
theorem encodePacket_holdsPacket {s : State} (h : s.Live) : (encodePacket s).buf.HoldsPacket := by
  have hlen : (packBytes s s.index).length = 1020 := packBytes_length s s.index
  obtain ⟨t, ht, -, -, -, -, -, -, -, -, -, -, -, hzero, htag⟩ := encodeWritesTheWireLayout s h
  obtain rfl := Host.Outcome.next.inj ((exec_encode h).symm.trans ht)
  simp only [State.respond_buf, encodePacket_buf] at hzero htag ⊢
  exact ⟨fun off => isSome_read_storePacket s.buf hlen, hzero, htag, _, readBytes_storePacket_body s.buf hlen,
    memRead_storePacket_checksum s.buf hlen⟩

theorem kept_bufferInvariant : Kept State.BufferInvariant where
  withPorts _ _ _ h := h
  writesOf {i s} hf hsession h := by
    rcases writesOf_cases i s with ⟨team, rfl, hw⟩ | ⟨rfl, hw⟩ | ⟨-, -, hw⟩ <;> rw [hw]
    · exact nofun
    · have hlive : s.Live := ⟨hf, hsession.resolve_right Bool.false_ne_true⟩
      exact fun _ => ⟨hlive.2, encodePacket_holdsPacket hlive⟩
    · exact h

/-! ## The responses (R100, R101) -/

theorem exec_responses {i : Instr} {s t : State} (h : exec i s = .next t) :
    ∃ r, responseWellFormed r ∧ t.responses = s.responses ++ [r] := by
  rcases exec_cases h with ⟨st, -, rfl⟩ | ⟨-, -, -, rfl⟩
  · exact ⟨_, responseWellFormed_responseWord fun _ => rfl, rfl⟩
  · exact ⟨_, responseWellFormed_responseWord fun hst => absurd rfl hst,
      by rw [State.respond_responses, writesOf_responses]⟩

/-- A step adds one response of the format, or none. -/
theorem step_responses {s t : State} (h : step s = .next t) :
    t.responses = s.responses ∨ ∃ r, responseWellFormed r ∧ t.responses = s.responses ++ [r] := by
  rcases step_cases h with ⟨-, rfl⟩ | ⟨w, rest, i, -, -, hexec⟩ | ⟨w, rest, e, st, -, -, -, rfl⟩ |
    ⟨off, rest, b, -, -, -, rfl⟩
  · exact .inl rfl
  · exact .inr (exec_responses (s := { s with inputs := rest }) hexec)
  · exact .inr ⟨_, responseWellFormed_responseWord fun _ => rfl, rfl⟩
  · exact .inl rfl

/-! ## The obligations -/

/-- Settles O47, register by register (`kept_sessionInvariant`). -/
theorem sessionInvariantIsKept : Obligations.SessionInvariantIsKept := fun _ _ hs h => kept_sessionInvariant.step h hs

/-- Settles O48: only ENCODE writes the buffer, and only below offset 1024 (`kept_wf`). -/
theorem bufferStaysCanonical : Obligations.BufferStaysCanonical := fun _ _ hs h => kept_wf.step h hs

/-- Settles O49: only ENCODE, in a session, makes the buffer valid (`kept_bufferInvariant`). -/
theorem validBufferHoldsACompletePacket : Obligations.ValidBufferHoldsACompletePacket :=
  fun _ _ hs h => kept_bufferInvariant.step h hs

/-- Settles O50: what a step adds to the responses has the format (`step_responses`). -/
theorem responsesStayWellFormed : Obligations.ResponsesStayWellFormed := by
  intro s t hs h r hr
  rcases step_responses h with ht | ⟨r', hr', ht⟩ <;> rw [ht] at hr
  · exact hs r hr
  · rcases List.mem_append.1 hr with hr | hr
    · exact hs r hr
    · rwa [List.mem_singleton.1 hr]

/-- Settles O51: the flags of the reset state, and the rules of R103 and R244 on it. -/
theorem hardwareResetLeavesNoSession : Obligations.HardwareResetLeavesNoSession := by
  refine ⟨rfl, rfl, rfl, rfl, fun i hi => exec_noSession rfl rfl hi,
    fun team => ⟨_, exec_init rfl team, rfl, rfl, rfl, rfl⟩, fun off => ?_⟩
  rw [step_readByte rfl]
  exact transportRead_of_invalid rfl off

/-- Settles O52: without a session and a valid buffer only the parameters are left to check. -/
theorem invariantsHoldAtReset : Obligations.InvariantsHoldAtReset :=
  ⟨⟨by decide, nofun⟩, ⟨.nil, nofun⟩, nofun, nofun⟩

end Machine

end Sys2Proof
